-- ==== Sys2Proof/Word.lean ====
section
/-! DEFINITION. The words the block's rules speak of (spec 00_scope.md R8, R9): `XLEN` = 64, `ILEN` = 32,
`CODE_W` = 32, 5-bit register indices and the 12-bit immediate. -/

namespace Sys2Proof

/-- A 64-bit value: a virtual register, a general register, the pc, an address (R8, `XLEN`). -/
abbrev Word := BitVec 64

/-- A byte of physical memory (R60). -/
abbrev Byte := BitVec 8

/-- The 32-bit instruction word (R8, `ILEN`; R80). -/
abbrev InstrWord := BitVec 32

/-- A general-register index, the fields `rd` and `rs1` (R28, R81). -/
abbrev RegIdx := BitVec 5

/-- The 12-bit immediate as decoded (R81). -/
abbrev Imm12 := BitVec 12

/-- A CSR identifier as compared, `code: u32` (R8, `CODE_W`; R83). -/
abbrev CsrId := BitVec 32

end Sys2Proof
end

