-- ==== Sys2Proof/Config.lean ====
section
/-! DEFINITION. The one OPEN parameter of the spec (00_scope.md R8; 92_eei_decisions.md D14), and the free values: what
the spec leaves at `any value` (93_implementation_defined.md rows 2 and 16). None has a body, so a statement about the
machine holds for every value of each. The parameters the spec
decides (`PGSIZE`, `MEM_BASE`, `CSR_TABLE`, the kernel window) stand with their defaults in Machine/Params.lean, where
a later audit can correct them (log 14). -/

namespace Sys2Proof

/-- `MVENDORID_TAG`, the "fixed implementation tag" that is the reset value of `mvendorid` (R45). The spec prints no
value: the constant has no body, so a statement about it holds for every value (log 10; safe). -/
opaque Config.mvendoridTag : Word

/-- The byte that physical memory holds at an address nothing has written: the launch contents of memory, unspecified
(R48, R201; log 7; safe). -/
opaque Config.launchByte : Nat → Byte

/-! ### The state after an internal fault, unspecified (R172; log 8; safe)

The first argument is the number of the draw, `State.freeDraws` when the fault is raised. -/

/-- The value of the virtual register with the given code. -/
opaque Config.haltedRegister : Nat → CsrId → Word

/-- The number of `current_mode`. -/
opaque Config.haltedMode : Nat → Fin 3

/-- `pmp_configuration`. -/
opaque Config.haltedFlag : Nat → Bool

/-- The shadow table: absent, or the entries (page, frame, flags) of a table, perhaps partly built. -/
opaque Config.haltedShadow : Nat → Option (List (BitVec 52 × BitVec 52 × Nat))

/-- The restricted table, in the same form. -/
opaque Config.haltedRestricted : Nat → Option (List (BitVec 52 × BitVec 52 × Nat))

/-- The number of `live_sel`: 0 original, 1 shadow, 2 restricted. -/
opaque Config.haltedLiveSel : Nat → Fin 3

/-- The guest `pc`: an MRET may have written it before its rebuild raised the fault, or not (R131). -/
opaque Config.haltedPc : Nat → Word

end Sys2Proof
end

