-- ==== Sys2Proof/Syntax.lean ====
section
/-! DEFINITION. The five admitted instructions (spec 30_encoding.md R84 to R87), one constructor per row of
spec/opcode_table.json. -/

namespace Sys2Proof

/-- An instruction the decoder admits. Both CSR classes keep every field of the word, the one each ignores
included (R86: `rd`; R87: `rs1`), so that no bit of the encoding is dropped. -/
inductive Instr where
  /-- ECALL, the word `0x00000073` (R85, R120). -/
  | ecall
  /-- SRET, the word `0x10200073` (R85, R125). -/
  | sret
  /-- MRET, the word `0x30200073` (R85, R130). -/
  | mret
  /-- CSRRW, the CSR-write class (R86, R141). -/
  | csrrw (csr : Imm12) (rs1 rd : RegIdx)
  /-- CSRRS, the CSR-read class (R87, R142). -/
  | csrrs (csr : Imm12) (rs1 rd : RegIdx)
deriving DecidableEq, Repr

end Sys2Proof
end

