-- ==== Sys2Proof/Machine/State.lean ====
section
/-! DEFINITION. Every piece of state the spec gives the block and its environment (spec 10_state.md R20 to R48), the
reasons a transaction can raise an event, and the state after reset. -/

namespace Sys2Proof.Machine

/-- PrivilegeMode, "{User=0, Supervisor=1, Machine=2}" (R22). -/
inductive Mode where
  | user
  | supervisor
  | machine
deriving DecidableEq, Repr

/-- `live_sel`: which table the guest's addresses are translated through (R31). -/
inductive LiveSel where
  | original
  | shadow
  | restricted
deriving DecidableEq, Repr

/-- The names of the 32 virtual registers of `CSR_TABLE` (R36), in the table's order. -/
inductive Csr where
  | sstatus | sedeleg | sideleg | sie | stvec | scounteren
  | sscratch | sepc | scause | stval | sip
  | mvendorid | marchid | mimpid | mhartid
  | mstatus | misa | medeleg | mideleg | mie | mtvec | mcounteren
  | mscratch | mepc | mcause | mtval | mip
  | pmpcfg0 | pmpaddr0 | pmpaddr1 | pmpaddr2 | pmpaddr3
deriving DecidableEq, Repr

/-- The values of the Virtual Register File, 64 bits each (R21, R36); `code` and `min_mode` are constants of the
instance and stand in Machine/Params.lean. No register is a view of another (R38). -/
structure VRegFile where
  sstatus : Word
  sedeleg : Word
  sideleg : Word
  sie : Word
  stvec : Word
  scounteren : Word
  sscratch : Word
  sepc : Word
  scause : Word
  stval : Word
  sip : Word
  mvendorid : Word
  marchid : Word
  mimpid : Word
  mhartid : Word
  mstatus : Word
  misa : Word
  medeleg : Word
  mideleg : Word
  mie : Word
  mtvec : Word
  mcounteren : Word
  mscratch : Word
  mepc : Word
  mcause : Word
  mtval : Word
  mip : Word
  pmpcfg0 : Word
  pmpaddr0 : Word
  pmpaddr1 : Word
  pmpaddr2 : Word
  pmpaddr3 : Word
deriving DecidableEq, Repr

/-- The reset values of the file: zero, but `mvendorid`, which carries the tag (R45, R48, R100). -/
def VRegFile.reset : VRegFile where
  sstatus := 0
  sedeleg := 0
  sideleg := 0
  sie := 0
  stvec := 0
  scounteren := 0
  sscratch := 0
  sepc := 0
  scause := 0
  stval := 0
  sip := 0
  mvendorid := Config.mvendoridTag
  marchid := 0
  mimpid := 0
  mhartid := 0
  mstatus := 0
  misa := 0
  medeleg := 0
  mideleg := 0
  mie := 0
  mtvec := 0
  mcounteren := 0
  mscratch := 0
  mepc := 0
  mcause := 0
  mtval := 0
  mip := 0
  pmpcfg0 := 0
  pmpaddr0 := 0
  pmpaddr1 := 0
  pmpaddr2 := 0
  pmpaddr3 := 0

/-- A page-table entry, the pair `(pa, flags)` of R62. `pa`, the physical address of the page's first byte, is a multiple
of `PGSIZE`: the entry holds the page frame number, and `Pte.pa` (Machine/PageTable.lean) is the address, so no entry has
another base. `flags` is opaque: the block copies and compares it and never reads it; a natural number of any size (DESIGN
CHOICE, log 11, safe). -/
structure Pte where
  frame : BitVec 52
  flags : Nat
deriving DecidableEq, Repr

/-- A logical page table, the finite partial map of R61, as the list of its (page number, entry) pairs with rising
page numbers. A page number not listed is `absent`. -/
abbrev Table := List (Nat × Pte)

/-- Physical memory, as the list of (address, byte) pairs with rising addresses. At an address not listed
nothing has been written, and a read gives its launch byte, a free value (log 7, safe). -/
abbrev Memory := List Host.Cell

/-- What the host, and the hart that runs the guest, can do to the machine between two transactions (R3, R7, R200,
R203). Each is one step (DESIGN CHOICE, log 2, unsafe for runs: see the log). -/
inductive HostInput where
  /-- `trap_req`: the dispatcher invokes the `TRAP` transaction (R110). -/
  | trap
  /-- `init_req`: the `INIT` transaction (R102). -/
  | init
  /-- Hardware reset (R200). -/
  | reset
  /-- The hart or the host changes general register `r` (R7, R28). -/
  | setReg (r : RegIdx) (v : Word)
  /-- The hart or the host changes the guest `pc` (R7, R30). -/
  | setPc (v : Word)
  /-- The hart or the host changes a byte of physical memory (R7, R60). -/
  | setByte (a : Word) (b : Byte)
  /-- The host maps a page of the guest's original table (R32, R202). -/
  | mapPage (vpn : BitVec 52) (e : Pte)
  /-- The host unmaps a page of the guest's original table (R32, R206). -/
  | unmapPage (vpn : BitVec 52)
  /-- The host sets the guest's user address-space size (R32, R206). -/
  | setGuestSize (n : Word)
  /-- The host hands the block a fresh process, whose kill mark is 0 (R33, R48, R171). -/
  | freshProcess
deriving DecidableEq, Repr

/-- The whole machine: the VmContext (R20), the environment behind the block's ports (R28 to R35), physical memory
(R60), and the model's own list of host inputs. -/
structure State where
  /-- The Virtual Register File (R21, R36). -/
  vregs : VRegFile
  /-- `current_mode` (R23). -/
  mode : Mode
  /-- `pmp_configuration` (R24). -/
  pmpConfiguration : Bool
  /-- `shadow_table` (R25). -/
  shadowTable : Option Table
  /-- `restricted_table` (R26). -/
  restrictedTable : Option Table
  /-- The guest's general registers (R28). Slot 0 is never read and never written: `x[0]` is hard-wired (R29). -/
  x : Vector Word 32
  /-- The guest program counter (R30). -/
  pc : Word
  /-- `live_sel` (R31). -/
  liveSel : LiveSel
  /-- `orig_table` (R32). -/
  origTable : Table
  /-- `guest_size` (R32). -/
  guestSize : Word
  /-- `killed` (R33). -/
  killed : Bool
  /-- `faulted` (R34). -/
  faulted : Bool
  /-- Physical memory (R60). -/
  mem : Memory
  /-- How many `tlb_flush` pulses the block has driven (R35, R158; DESIGN CHOICE, log 13, safe). -/
  tlbFlushes : Nat
  /-- The model's own field: how many draws of free values there have been, one an internal fault (DESIGN CHOICE, log 8,
  safe). -/
  freeDraws : Nat
  /-- The model's own field: the host inputs not yet taken, oldest first; an empty list stands for a host whose next
  action is `TRAP` (DESIGN CHOICE, log 1, log 2). -/
  inputs : List HostInput
deriving DecidableEq, Repr

/-- The guest-attributable protocol violations (R170, R173). Each one's effect is the violation sequence (R171), a
next state: none stops the machine. -/
inductive Violation where
  /-- `Lookup` finds no register (R140). -/
  | unknownRegister
  /-- The register is found and its `min_mode` is above the mode (R140). -/
  | insufficientPrivilege
  /-- ECALL at Machine (R123). -/
  | ecallAtMachine
  /-- SRET outside Supervisor (R125). -/
  | sretNotSupervisor
  /-- MRET at User (R130). -/
  | mretAtUser
  /-- The word is none of the five instructions (R88, R110). -/
  | unrecognisedInstruction
deriving DecidableEq, Repr

/-- The reasons of an internal fault (R172, R173). Each one's effect is the halted state, a next state with `faulted`
set: none stops the machine by itself. -/
inductive InternalFault where
  /-- A page of a duplicated range is absent from the source table (R151). -/
  | inconsistentGuestMapping
  /-- The page of `pc` is absent from the live table (R65). -/
  | fetchUnmapped
  /-- `pc` is not a multiple of 4 (R66, R68). -/
  | fetchMisaligned
deriving DecidableEq, Repr

/-- Why the machine stops. -/
inductive Fault where
  /-- Raised by a step whose request is `TRAP` or `INIT` while `faulted` is 1: the block accepts nothing (R34, R102,
  R110); safe: the spec gives no step (log 9). -/
  | halted
  /-- Raised by `Translate` and `BuildRestricted` when the handle they need is absent, which the invariant of R27
  excludes from every run; safe (log 12). -/
  | absentTable
deriving DecidableEq, Repr

/-- Why the model gives an instruction no meaning. -/
inductive Refusal where
  /-- Raised by an arm of `exec` whose instruction has no meaning yet; safe: the model stops. -/
  | notModelled (mnemonic : String)
deriving DecidableEq, Repr

/-- What `raise` raises (R10, R170): a protocol violation or an internal fault, which the machine takes; or a stop of the
model's own. -/
inductive Raise where
  | violation (v : Violation)
  | internalFault (r : InternalFault)
  | stop (f : Fault)
deriving DecidableEq, Repr

/-- The machine right after hardware reset (R48, R200). The spec leaves `x`, `pc`, `orig_table`, `guest_size`, `killed`
and memory to the host (R201): DESIGN CHOICE, unsafe, logs 3 to 6; memory: log 7; the model's own fields: logs 1, 8 and
13. -/
def State.reset : State where
  vregs := VRegFile.reset
  mode := .machine
  pmpConfiguration := false
  shadowTable := none
  restrictedTable := none
  x := Vector.replicate 32 0
  pc := 0
  liveSel := .original
  origTable := []
  guestSize := 0
  killed := false
  faulted := false
  mem := []
  tlbFlushes := 0
  freeDraws := 0
  inputs := []

end Sys2Proof.Machine
end

