-- ==== Sys2Proof/Machine/Params.lean ====
section
/-! DEFINITION. The fixed and the decided parameters with their defaults (spec 00_scope.md R8; 92_eei_decisions.md D12,
D20, D23), kept in one place so that an audit can correct a number without touching a rule (log 14). -/

namespace Sys2Proof.Machine

/-- `PGSIZE`, in bytes (R8, D20). -/
def pageSize : Nat := 4096

/-- `KWIN_BASE`, the first byte of the kernel window (R8, R71). -/
def kwinBase : Nat := 0x80000000

/-- `KWIN_END`, the first byte after the kernel window (R8, R71). -/
def kwinEnd : Nat := 0x80400000

/-- `MEM_BASE`, "the base of memory", where PMP region 0 starts (R8, D23). -/
def memBase : Word := 0x80000000#64

/-- One instruction width in bytes (R144). -/
def instrBytes : Word := 4#64

/-- The number of a mode, the one compared in every check (R9, R22). -/
def Mode.num : Mode → Nat
  | .user => 0
  | .supervisor => 1
  | .machine => 2

/-- `CSR_TABLE`, the code column (R36). -/
def Csr.code : Csr → CsrId
  | .sstatus => 0x100#32
  | .sedeleg => 0x102#32
  | .sideleg => 0x103#32
  | .sie => 0x104#32
  | .stvec => 0x105#32
  | .scounteren => 0x106#32
  | .sscratch => 0x140#32
  | .sepc => 0x141#32
  | .scause => 0x142#32
  | .stval => 0x143#32
  | .sip => 0x144#32
  | .mvendorid => 0xF11#32
  | .marchid => 0xF12#32
  | .mimpid => 0xF13#32
  | .mhartid => 0xF14#32
  | .mstatus => 0x300#32
  | .misa => 0x301#32
  | .medeleg => 0x302#32
  | .mideleg => 0x303#32
  | .mie => 0x304#32
  | .mtvec => 0x305#32
  | .mcounteren => 0x306#32
  | .mscratch => 0x340#32
  | .mepc => 0x341#32
  | .mcause => 0x342#32
  | .mtval => 0x343#32
  | .mip => 0x344#32
  | .pmpcfg0 => 0x3A0#32
  | .pmpaddr0 => 0x3B0#32
  | .pmpaddr1 => 0x3B1#32
  | .pmpaddr2 => 0x3B2#32
  | .pmpaddr3 => 0x3B3#32

/-- `CSR_TABLE`, the min_mode column (R36): Supervisor for the eleven `s*` registers, Machine for the rest. -/
def Csr.minMode : Csr → Mode
  | .sstatus => .supervisor
  | .sedeleg => .supervisor
  | .sideleg => .supervisor
  | .sie => .supervisor
  | .stvec => .supervisor
  | .scounteren => .supervisor
  | .sscratch => .supervisor
  | .sepc => .supervisor
  | .scause => .supervisor
  | .stval => .supervisor
  | .sip => .supervisor
  | .mvendorid => .machine
  | .marchid => .machine
  | .mimpid => .machine
  | .mhartid => .machine
  | .mstatus => .machine
  | .misa => .machine
  | .medeleg => .machine
  | .mideleg => .machine
  | .mie => .machine
  | .mtvec => .machine
  | .mcounteren => .machine
  | .mscratch => .machine
  | .mepc => .machine
  | .mcause => .machine
  | .mtval => .machine
  | .mip => .machine
  | .pmpcfg0 => .machine
  | .pmpaddr0 => .machine
  | .pmpaddr1 => .machine
  | .pmpaddr2 => .machine
  | .pmpaddr3 => .machine

/-- The rows of `CSR_TABLE` in the table's order (R36). -/
def csrTable : List Csr :=
  [.sstatus, .sedeleg, .sideleg, .sie, .stvec, .scounteren, .sscratch, .sepc, .scause, .stval, .sip,
   .mvendorid, .marchid, .mimpid, .mhartid, .mstatus, .misa, .medeleg, .mideleg, .mie, .mtvec, .mcounteren,
   .mscratch, .mepc, .mcause, .mtval, .mip, .pmpcfg0, .pmpaddr0, .pmpaddr1, .pmpaddr2, .pmpaddr3]

/-- The identifiers whose successful write sets `pmp_configuration` (R143). -/
def pmpCodes : List CsrId := [0x3A0#32, 0x3B0#32, 0x3B1#32, 0x3B2#32, 0x3B3#32]

end Sys2Proof.Machine
end

