-- ==== Sys2Proof/Machine/Flags.lean ====
section
/-! DEFINITION. Every bit of a virtual register the block interprets, and what trap entry and trap return do to the
two status registers (spec 10_state.md R39, R40; 42_privilege_transitions.md R121, R122, R125, R130). The block has no
condition codes (R46). -/

namespace Sys2Proof.Machine

/-- `v[i] <- b`, every other bit unchanged (R9). -/
def setBit (v : Word) (i : Nat) (b : Bool) : Word :=
  if b then v ||| BitVec.twoPow 64 i else v &&& ~~~ BitVec.twoPow 64 i

/-! ### Bit positions (R39, R40; D15) -/

/-- `sstatus` SIE. -/
def bitSie : Nat := 1

/-- `sstatus` SPIE. -/
def bitSpie : Nat := 5

/-- `sstatus` SPP, one bit. -/
def bitSpp : Nat := 8

/-- `mstatus` MIE. -/
def bitMie : Nat := 3

/-- `mstatus` MPIE. -/
def bitMpie : Nat := 7

/-- `mstatus` MPP, the lower of its two bits. -/
def bitMpp : Nat := 11

/-- `s[8]` as a number, 0 or 1 (R125). -/
def sppOf (s : Word) : Nat := (s.extractLsb' bitSpp 1).toNat

/-- `m[12:11]` as a number, 0 to 3 (R130). -/
def mppOf (m : Word) : Nat := (m.extractLsb' bitMpp 2).toNat

/-- `sstatus` after a virtual trap from User: SPIE <- SIE, SIE <- 0, SPP <- 0 (R121). -/
def sstatusOnEntry (s : Word) : Word :=
  setBit (setBit (setBit s bitSpie (s.getLsbD bitSie)) bitSie false) bitSpp false

/-- `mstatus` after a virtual trap from Supervisor: MPIE <- MIE, MIE <- 0, MPP <- 0b01 (R122). -/
def mstatusOnEntry (m : Word) : Word :=
  setBit (setBit (setBit (setBit m bitMpie (m.getLsbD bitMie)) bitMie false) bitMpp true) (bitMpp + 1) false

/-- `sstatus` after SRET: SIE <- SPIE (R125). -/
def sstatusOnReturn (s : Word) : Word := setBit s bitSie (s.getLsbD bitSpie)

/-- `mstatus` after MRET: MIE <- MPIE (R130). -/
def mstatusOnReturn (m : Word) : Word := setBit m bitMie (m.getLsbD bitMpie)

/-- The mode after a return to previous privilege `pp`: `pp` when it is below `limit`, else unchanged (R125 with limit
1, R130 with limit 2; 2 and 3 are not below Machine, C13). -/
def demote (limit pp : Nat) (mode : Mode) : Mode :=
  if pp < limit then
    if pp = 0 then .user else if pp = 1 then .supervisor else mode
  else mode

end Sys2Proof.Machine
end

