-- ==== Sys2Proof/WellFormed.lean ====
section
/-! DEFINITION. Which instructions and which words are well formed. An operand field has exactly the width of its
place in the word (R81), so an ill-formed `Instr` cannot be written down; what can be ill formed is a word, and
`wordChecks` names the three checks a word of the SYSTEM opcode must pass (R84, R88). -/

namespace Sys2Proof

/-- Well-formedness of an instruction: every value of every field is admitted (R86 and R87 accept `rd` and `rs1`
0 to 31 and every 12-bit identifier decodes, R83). -/
def WellFormed : Instr → Bool
  | .ecall => true
  | .sret => true
  | .mret => true
  | .csrrw _ _ _ => true
  | .csrrs _ _ _ => true

/-- Check 1: the opcode field is SYSTEM, `0x73` (R84). -/
def opcodeIsSystem (w : InstrWord) : Bool :=
  w.extractLsb' 0 7 == 0x73#7

/-- Check 2: `funct3` is 0, 1 or 2 (R84). -/
def funct3IsAdmitted (w : InstrWord) : Bool :=
  decide ((w.extractLsb' 12 3).toNat < 3)

/-- Check 3: a word with `funct3` = 0 is one of the three whole words (R85). -/
def fixedWordIsExact (w : InstrWord) : Bool :=
  w.extractLsb' 12 3 != 0#3 || w == 0x00000073#32 || w == 0x10200073#32 || w == 0x30200073#32

/-- A word is well formed when it passes the three checks; every other word is unrecognised (R88). -/
def wordChecks (w : InstrWord) : Bool :=
  opcodeIsSystem w && funct3IsAdmitted w && fixedWordIsExact w

end Sys2Proof
end

