-- ==== Sys2Proof/Decode.lean ====
section
/-! DEFINITION. The decoder, total on all words and all byte strings (spec 30_encoding.md R80 to R89), and the
encoder written from the same tables. -/

namespace Sys2Proof

/-- Why bytes are no instruction. The block treats each `…Word`, `…Opcode` and `…Funct3` reason as the one protocol
violation `UnrecognisedInstruction` (R88); `truncated` is for byte strings shorter than a word and never arises in a
fetch, which reads four bytes (R66). -/
inductive DecodeReject where
  /-- Fewer than four bytes are left. -/
  | truncated
  /-- The opcode field is not SYSTEM (R84). -/
  | notSystemOpcode
  /-- `funct3` = 0 and not one of the three whole words: EBREAK, URET, WFI, SFENCE.VMA, reserved (R85, R88). -/
  | otherFixedWord
  /-- `funct3` is 3 to 7: CSRRC, reserved, and the immediate CSR forms (R84, R88). -/
  | otherFunct3
deriving DecidableEq, Repr

/-! ### Fields (R81, R82) -/

/-- `opcode`, bits 6:0. -/
def fieldOpcode (w : InstrWord) : BitVec 7 := w.extractLsb' 0 7

/-- `rd`, bits 11:7. -/
def fieldRd (w : InstrWord) : RegIdx := w.extractLsb' 7 5

/-- `funct3`, bits 14:12. -/
def fieldFunct3 (w : InstrWord) : BitVec 3 := w.extractLsb' 12 3

/-- `rs1`, bits 19:15. -/
def fieldRs1 (w : InstrWord) : RegIdx := w.extractLsb' 15 5

/-- `imm12`, bits 31:20. -/
def fieldImm12 (w : InstrWord) : Imm12 := w.extractLsb' 20 12

/-- The SYSTEM opcode, `0b1110011` (R84). -/
def opcodeSystem : BitVec 7 := 0x73#7

/-- The whole word of ECALL (R85). -/
def wordEcall : InstrWord := 0x00000073#32

/-- The whole word of SRET (R85). -/
def wordSret : InstrWord := 0x10200073#32

/-- The whole word of MRET (R85). -/
def wordMret : InstrWord := 0x30200073#32

/-! ### Decoding -/

/-- The dispatch of R84. -/
def decodeWord (w : InstrWord) : Except DecodeReject Instr :=
  if fieldOpcode w ≠ opcodeSystem then .error .notSystemOpcode
  else if fieldFunct3 w = 0#3 then
    if w = wordEcall then .ok .ecall
    else if w = wordSret then .ok .sret
    else if w = wordMret then .ok .mret
    else .error .otherFixedWord
  else if fieldFunct3 w = 1#3 then .ok (.csrrw (fieldImm12 w) (fieldRs1 w) (fieldRd w))
  else if fieldFunct3 w = 2#3 then .ok (.csrrs (fieldImm12 w) (fieldRs1 w) (fieldRd w))
  else .error .otherFunct3

/-- Four bytes, lowest address first, as a word: little-endian (20_memory.md R67). -/
def wordOfBytes (b0 b1 b2 b3 : Byte) : InstrWord := b3 ++ b2 ++ b1 ++ b0

/-- Byte `k` of a word, `k` = 0 at the lowest address (R67). -/
def byteOfWord (w : InstrWord) (k : Nat) : Byte := w.extractLsb' (8 * k) 8

/-- The four bytes of a word, lowest address first. -/
def bytesOfWord (w : InstrWord) : List Byte :=
  [byteOfWord w 0, byteOfWord w 1, byteOfWord w 2, byteOfWord w 3]

/-- Decode one instruction off the front of a byte string; every instruction is four bytes (R80, R89). -/
def decode : List Byte → Except DecodeReject (Instr × List Byte)
  | b0 :: b1 :: b2 :: b3 :: rest =>
    match decodeWord (wordOfBytes b0 b1 b2 b3) with
    | .ok i => .ok (i, rest)
    | .error r => .error r
  | _ => .error .truncated

/-! ### Encoding -/

/-- The word of the I-type SYSTEM layout with the given fields (R81). -/
def packWord (imm : Imm12) (rs1 : RegIdx) (funct3 : BitVec 3) (rd : RegIdx) : InstrWord :=
  imm ++ rs1 ++ funct3 ++ rd ++ opcodeSystem

/-- The word of an instruction (R85 to R87). -/
def encodeWord : Instr → InstrWord
  | .ecall => wordEcall
  | .sret => wordSret
  | .mret => wordMret
  | .csrrw csr rs1 rd => packWord csr rs1 1#3 rd
  | .csrrs csr rs1 rd => packWord csr rs1 2#3 rd

/-- The bytes of an instruction, lowest address first. -/
def encode (i : Instr) : List Byte := bytesOfWord (encodeWord i)

/-! ### The opcode table's numbering -/

/-- The word of a table row given by its low `nbits` bits; every higher bit is 0. -/
def tableWord (nbits w : Nat) : InstrWord := BitVec.ofNat 32 (w % 2 ^ nbits)

/-- What the decoder reads from the instruction whose bits are `w` in the numbering of spec/opcode_table.json. -/
def decodeTableWord (nbits w : Nat) : Option Instr :=
  match decode (bytesOfWord (tableWord nbits w)) with
  | .ok (i, _) => some i
  | .error _ => none

end Sys2Proof
end

