-- ==== Sys2Proof/Machine/Assoc.lean ====
section
/-! DEFINITION. Finite partial maps from Nat as lists with strictly rising keys, the one form memory and the page
tables share (spec 20_memory.md R60, R61). -/

namespace Sys2Proof.Machine

/-- The value at a key, or none. -/
def Assoc.find {α : Type} : List (Nat × α) → Nat → Option α
  | [], _ => none
  | (k, v) :: t, a => if k = a then some v else Assoc.find t a

/-- The map with `v` at key `a`; the keys stay rising. -/
def Assoc.put {α : Type} : List (Nat × α) → Nat → α → List (Nat × α)
  | [], a, v => [(a, v)]
  | (k, w) :: t, a, v =>
    if a < k then (a, v) :: (k, w) :: t
    else if a = k then (a, v) :: t
    else (k, w) :: Assoc.put t a v

/-- The map with nothing at key `a`. -/
def Assoc.drop {α : Type} (m : List (Nat × α)) (a : Nat) : List (Nat × α) :=
  m.filter fun c => c.1 != a

/-- The canonical form: the keys rise strictly. -/
def Assoc.rising {α : Type} : List (Nat × α) → Bool
  | [] => true
  | [_] => true
  | a :: b :: t => decide (a.1 < b.1) && Assoc.rising (b :: t)

end Sys2Proof.Machine
end

