-- ==== Sys2Proof/Machine/Memory.lean ====
section
/-! DEFINITION. Physical memory (spec 20_memory.md R60, R66, R67, R69). Byte order is decided here and in
`wordOfBytes`, and nowhere else. -/

namespace Sys2Proof.Machine

/-- The byte written at an address, or none where nothing has written one. -/
def Memory.read (m : Memory) (a : Nat) : Option Byte := Assoc.find m a

/-- `Mem[a]`: the byte written there, else the address's launch byte, a free value (R60, R201; log 7). -/
def Memory.byteAt (m : Memory) (a : Nat) : Byte :=
  match m.read a with
  | some b => b
  | none => Config.launchByte a

/-- Memory with byte `b` at address `a`; only the environment and `withFetchWord` write (R69). -/
def Memory.write (m : Memory) (a : Nat) (b : Byte) : Memory := Assoc.put m a b

/-- `MemRead(pa, 4)`, little-endian (R66, R67). The addresses `pa` to `pa + 3` of a fetch never pass 2^64 (log 17). -/
def Memory.readWord (m : Memory) (pa : Word) : InstrWord :=
  wordOfBytes (m.byteAt pa.toNat) (m.byteAt (pa + 1).toNat) (m.byteAt (pa + 2).toNat) (m.byteAt (pa + 3).toNat)

/-- Memory with the four bytes of a word at `pa`, in the order `readWord` reads them. -/
def Memory.writeWord (m : Memory) (pa : Word) (w : InstrWord) : Memory :=
  (((m.write pa.toNat (byteOfWord w 0)).write (pa + 1).toNat (byteOfWord w 1)).write
    (pa + 2).toNat (byteOfWord w 2)).write (pa + 3).toNat (byteOfWord w 3)

/-- The canonical form: addresses rise strictly and lie in the 64-bit address space (R60). An address
is listed exactly when something has written it: what an unlisted one reads as is a free value, so no written byte can be
told equal to it (log 7). -/
def Memory.wf (m : Memory) : Bool :=
  Assoc.rising m && m.all fun c => decide (c.1 < 2 ^ 64)

end Sys2Proof.Machine
end

