-- ==== Sys2Proof/Machine/Operands.lean ====
section
/-! DEFINITION. The operand forms: general registers (spec 10_state.md R28, R29), virtual registers by name (R36, R37)
and by identifier (40_register_file.md R101; 30_encoding.md R83). -/

namespace Sys2Proof.Machine

/-- Read `x[i]`; `x[0]` reads 0 (R29). -/
def State.readX (s : State) (i : RegIdx) : Word :=
  if i = 0#5 then 0 else s.x[i.toNat]'i.isLt

/-- `x[i] <- v`; a write to `x[0]` is discarded (R29). -/
def State.writeX (s : State) (i : RegIdx) (v : Word) : State :=
  if i = 0#5 then s else { s with x := s.x.set i.toNat v i.isLt }

/-- `vreg[r]`, all 64 bits (R37). -/
def VRegFile.get (f : VRegFile) : Csr → Word
  | .sstatus => f.sstatus
  | .sedeleg => f.sedeleg
  | .sideleg => f.sideleg
  | .sie => f.sie
  | .stvec => f.stvec
  | .scounteren => f.scounteren
  | .sscratch => f.sscratch
  | .sepc => f.sepc
  | .scause => f.scause
  | .stval => f.stval
  | .sip => f.sip
  | .mvendorid => f.mvendorid
  | .marchid => f.marchid
  | .mimpid => f.mimpid
  | .mhartid => f.mhartid
  | .mstatus => f.mstatus
  | .misa => f.misa
  | .medeleg => f.medeleg
  | .mideleg => f.mideleg
  | .mie => f.mie
  | .mtvec => f.mtvec
  | .mcounteren => f.mcounteren
  | .mscratch => f.mscratch
  | .mepc => f.mepc
  | .mcause => f.mcause
  | .mtval => f.mtval
  | .mip => f.mip
  | .pmpcfg0 => f.pmpcfg0
  | .pmpaddr0 => f.pmpaddr0
  | .pmpaddr1 => f.pmpaddr1
  | .pmpaddr2 => f.pmpaddr2
  | .pmpaddr3 => f.pmpaddr3

/-- `vreg[r] <- v`, all 64 bits stored, no other register changed (R37, R38). -/
def VRegFile.set (f : VRegFile) (r : Csr) (v : Word) : VRegFile :=
  match r with
  | .sstatus => { f with sstatus := v }
  | .sedeleg => { f with sedeleg := v }
  | .sideleg => { f with sideleg := v }
  | .sie => { f with sie := v }
  | .stvec => { f with stvec := v }
  | .scounteren => { f with scounteren := v }
  | .sscratch => { f with sscratch := v }
  | .sepc => { f with sepc := v }
  | .scause => { f with scause := v }
  | .stval => { f with stval := v }
  | .sip => { f with sip := v }
  | .mvendorid => { f with mvendorid := v }
  | .marchid => { f with marchid := v }
  | .mimpid => { f with mimpid := v }
  | .mhartid => { f with mhartid := v }
  | .mstatus => { f with mstatus := v }
  | .misa => { f with misa := v }
  | .medeleg => { f with medeleg := v }
  | .mideleg => { f with mideleg := v }
  | .mie => { f with mie := v }
  | .mtvec => { f with mtvec := v }
  | .mcounteren => { f with mcounteren := v }
  | .mscratch => { f with mscratch := v }
  | .mepc => { f with mepc := v }
  | .mcause => { f with mcause := v }
  | .mtval => { f with mtval := v }
  | .mip => { f with mip := v }
  | .pmpcfg0 => { f with pmpcfg0 := v }
  | .pmpaddr0 => { f with pmpaddr0 := v }
  | .pmpaddr1 => { f with pmpaddr1 := v }
  | .pmpaddr2 => { f with pmpaddr2 := v }
  | .pmpaddr3 => { f with pmpaddr3 := v }

/-- `vreg[r] <- v` in the state. -/
def State.writeVReg (s : State) (r : Csr) (v : Word) : State :=
  { s with vregs := s.vregs.set r v }

/-- `csr_id = zext_32(imm12)` (R83). -/
def csrIdOf (imm : Imm12) : CsrId := imm.setWidth 32

/-- `Lookup(code)`: the register whose code equals the operand, or not found (R101). -/
def lookupCsr (code : CsrId) : Option Csr := csrTable.find? fun r => r.code == code

/-- `CsrCheck(csr_id)`: lookup first, then the privilege test (R140). -/
def csrCheck (s : State) (id : CsrId) : Except Raise Csr :=
  match lookupCsr id with
  | none => .error (.violation .unknownRegister)
  | some r =>
    if s.mode.num < r.minMode.num then .error (.violation .insufficientPrivilege) else .ok r

end Sys2Proof.Machine
end

