-- ==== Sys2Proof/Machine/PageTable.lean ====
section
/-! DEFINITION. Page arithmetic and the two region operations on logical page tables (spec 20_memory.md R61 to R63;
44_shadow_pmp.md R150 to R152). The operations walk a table once; `duplicateLoop` and `restrictLoop` are the spec's
pseudocode, page by page, and the claims relate the two (log 15). -/

namespace Sys2Proof.Machine

/-! ### Page arithmetic (R63) -/

/-- `VPN(va)`. -/
def vpnOf (va : Word) : Nat := va.toNat / pageSize

/-- `OFF(va)`. -/
def offOf (va : Word) : Word := BitVec.ofNat 64 (va.toNat % pageSize)

/-- The first page of `PageRange(start, stop)`: the page of `PGDOWN(start)`. -/
def firstPage (start : Nat) : Nat := start / pageSize

/-- How many pages `PageRange(start, stop)` has: none when `stop ≤ start`, else the pages from `PGDOWN(start)` whose
first byte lies below `stop`. -/
def pageCount (start stop : Nat) : Nat :=
  if stop ≤ start then 0 else (stop - 1) / pageSize + 1 - firstPage start

/-- `PageRange(start, stop)`, ascending. -/
def pageRange (start stop : Nat) : List Nat := List.range' (firstPage start) (pageCount start stop)

/-- Whether a page is one of `PageRange(start, stop)`. -/
def inPageRange (start stop vpn : Nat) : Bool :=
  decide (firstPage start ≤ vpn) && decide (vpn < firstPage start + pageCount start stop)

/-! ### Tables (R61, R62) -/

/-- `pa` of an entry: the physical address of the page's first byte, a multiple of `PGSIZE` (R62). -/
def Pte.pa (e : Pte) : Word := BitVec.ofNat 64 (e.frame.toNat * pageSize)

/-- `T[vpn]`. -/
def Table.find (t : Table) (vpn : Nat) : Option Pte := Assoc.find t vpn

/-- `T[vpn] <- e`. -/
def Table.put (t : Table) (vpn : Nat) (e : Pte) : Table := Assoc.put t vpn e

/-- `T[vpn] <- absent`. -/
def Table.drop (t : Table) (vpn : Nat) : Table := Assoc.drop t vpn

/-- The canonical form: page numbers rise strictly and have at most 52 bits (R61, R63). -/
def Table.wf (t : Table) : Bool :=
  Assoc.rising t && t.all fun c => decide (c.1 < 2 ^ 52)

/-- The entries of `n` pages from page `v` on, found in one walk up a table with rising pages; none at the first page
that is absent. -/
def Table.copyPages : Table → Nat → Nat → Option Table
  | _, 0, _ => some []
  | [], _ + 1, _ => none
  | (k, e) :: t, n + 1, v =>
    if k < v then Table.copyPages t (n + 1) v
    else if k = v then (Table.copyPages t n (v + 1)).map ((k, e) :: ·)
    else none

/-- `duplicate_region(source, dest, start, end)` (R151): none stands for `InternalFault(InconsistentGuestMapping)`. -/
def Table.duplicateRegion (source dest : Table) (start stop : Nat) : Option Table :=
  (source.copyPages (pageCount start stop) (firstPage start)).map fun pages =>
    dest.filter (fun c => decide (c.1 < firstPage start)) ++ pages ++
      dest.filter (fun c => decide (firstPage start + pageCount start stop ≤ c.1))

/-- `restrict_region(table, start, end)` (R152). -/
def Table.restrictRegion (t : Table) (start stop : Nat) : Table :=
  t.filter fun c => !inPageRange start stop c.1

/-- The pseudocode of R151, one page at a time. -/
def Table.duplicateLoop (source dest : Table) (start stop : Nat) : Option Table :=
  (pageRange start stop).foldlM (fun d vpn => (source.find vpn).map fun e => d.put vpn e) dest

/-- The pseudocode of R152, one page at a time. -/
def Table.restrictLoop (t : Table) (start stop : Nat) : Table :=
  (pageRange start stop).foldl (fun d vpn => d.drop vpn) t

/-! ### PMP regions (R154 to R156) -/

/-- A `PmpRegion` record: `[start, stop)` and the RWX mask (R155). -/
structure PmpRegion where
  start : Word
  stop : Word
  perm : BitVec 3
deriving DecidableEq, Repr

/-- `Boundary(i)` of the raw value of PMP address register `i`: shifted left by 2, the two top bits lost (R154). -/
def pmpBoundary (addr : Word) : Word := addr <<< 2

/-- Bits 2:0 of byte lane `i` of `pmpcfg0`: execute, write, read (R41, R155). -/
def pmpPerm (cfg : Word) (i : Nat) : BitVec 3 := cfg.extractLsb' (8 * i) 3

/-- The scan of R155 from lane `i` on, the next region starting at `start`; it stops at the first zero register. -/
def pmpScan (cfg : Word) : Nat → Word → List Word → List PmpRegion
  | _, _, [] => []
  | i, start, a :: rest =>
    if a = 0 then []
    else ⟨start, pmpBoundary a, pmpPerm cfg i⟩ :: pmpScan cfg (i + 1) (pmpBoundary a) rest

/-- `PmpRegions()` (R155), "a pure function" of the address registers and the configuration register. -/
def pmpRegions (r : VRegFile) : List PmpRegion :=
  pmpScan r.pmpcfg0 0 memBase [r.pmpaddr0, r.pmpaddr1, r.pmpaddr2, r.pmpaddr3]

/-- The permission test: all of read, write and execute (R156). -/
def PmpRegion.allAccess (r : PmpRegion) : Bool := r.perm == 0x7#3

/-- One turn of the loop of R157: prune the region unless it has all access. -/
def Table.applyRegion (t : Table) (r : PmpRegion) : Table :=
  if r.allAccess then t else t.restrictRegion r.start.toNat r.stop.toNat

/-! ### The two constructions (R153, R157) -/

/-- The user range and then the kernel window of `source`, duplicated into the empty table. -/
def Table.duplicateBoth (source : Table) (guestSize : Word) : Option Table :=
  match source.duplicateRegion [] 0 guestSize.toNat with
  | none => none
  | some t => source.duplicateRegion t kwinBase kwinEnd

/-- `BuildShadow()`; none stands for `InternalFault(InconsistentGuestMapping)` (R153). -/
def buildShadow (origTable : Table) (guestSize : Word) : Option Table :=
  origTable.duplicateBoth guestSize

/-- `BuildRestricted()`; none stands for `InternalFault(InconsistentGuestMapping)` (R157). -/
def buildRestricted (shadowTable : Table) (guestSize : Word) (regions : List PmpRegion) : Option Table :=
  (shadowTable.duplicateBoth guestSize).map fun t => regions.foldl Table.applyRegion t

end Sys2Proof.Machine
end

