-- ==== Sys2Proof/Machine/Ops.lean ====
section
/-! DEFINITION. The shared operations: installing a table, initialising the context, the violation sequence and the
internal fault, virtual trap entry and return, translation and fetch, the PMP synchronisation point (spec 20_memory.md, 40_register_file.md,
42_privilege_transitions.md, 44_shadow_pmp.md, 60_exceptions.md). -/

namespace Sys2Proof.Machine

/-! ### Tables and reset -/

/-- `Install(sel)`: select the table and pulse `tlb_flush`, also when the selector does not change (R158). -/
def install (sel : LiveSel) (s : State) : State :=
  { s with liveSel := sel, tlbFlushes := s.tlbFlushes + 1 }

/-- `Initialize()` (R100). -/
def initContext (s : State) : State :=
  install .original
    { s with
      vregs := VRegFile.reset
      mode := .machine
      pmpConfiguration := false
      shadowTable := none
      restrictedTable := none }

/-- Hardware reset: `faulted` <- 0, then `Initialize()` (R200). -/
def hardwareReset (s : State) : State := initContext { s with faulted := false }

/-! ### Taking an event -/

/-- The violation sequence: `killed` <- 1, then `Initialize()`; the reason selects nothing (R171). -/
def violationSequence (_reason : Violation) (s : State) : State :=
  initContext { s with killed := true }

/-- A free page table in the canonical form: the listed entries put into the empty table. -/
def freeTable (entries : List (BitVec 52 × BitVec 52 × Nat)) : Table :=
  entries.foldl (fun t c => t.put c.1.toNat ⟨c.2.1, c.2.2⟩) []

/-- A free virtual register file: a value drawn for every row of `CSR_TABLE`. -/
def freeVRegs (draw : Nat) : VRegFile :=
  csrTable.foldl (fun f r => f.set r (Config.haltedRegister draw r.code)) VRegFile.reset

/-- A free mode, by its number. -/
def freeMode (n : Fin 3) : Mode :=
  match n with
  | 0 => .user
  | 1 => .supervisor
  | 2 => .machine

/-- A free table selector, by its number. -/
def freeLiveSel (n : Fin 3) : LiveSel :=
  match n with
  | 0 => .original
  | 1 => .shadow
  | 2 => .restricted

/-- The internal fault: `faulted` <- 1, and the block halts; every other piece of block state, and `pc`, is a free value
from then on; the guest is not killed and the context not reset. The reason selects nothing (R172; log 8). -/
def haltSequence (_reason : InternalFault) (s : State) : State :=
  { s with
    faulted := true
    vregs := freeVRegs s.freeDraws
    mode := freeMode (Config.haltedMode s.freeDraws)
    pmpConfiguration := Config.haltedFlag s.freeDraws
    shadowTable := (Config.haltedShadow s.freeDraws).map freeTable
    restrictedTable := (Config.haltedRestricted s.freeDraws).map freeTable
    liveSel := freeLiveSel (Config.haltedLiveSel s.freeDraws)
    pc := Config.haltedPc s.freeDraws
    freeDraws := s.freeDraws + 1 }

/-- What `raise` does to a transaction that has written nothing of its own (R10, R171, R172): a violation runs the
violation sequence, an internal fault halts the block, a stop of the model ends the run. -/
def raiseEvent (s : State) : Raise → Host.Outcome State Fault Refusal
  | .violation reason => .next (violationSequence reason s)
  | .internalFault reason => .next (haltSequence reason s)
  | .stop f => .fault f

/-- The end of an instruction started in `s`: its next state, or the event it raised. -/
def finish (s : State) : Except Raise State → Host.Outcome State Fault Refusal
  | .ok t => .next t
  | .error e => raiseEvent s e

/-! ### Virtual trap entry (R178) and return (R179) -/

/-- Entry into Supervisor: `pc` into `sepc`, the entry convention on `sstatus`, `pc` from the whole of `stvec` (R121). -/
def enterSupervisor (s : State) : State :=
  { s with
    vregs := { s.vregs with sepc := s.pc, sstatus := sstatusOnEntry s.vregs.sstatus }
    mode := .supervisor
    pc := s.vregs.stvec }

/-- Entry into Machine: `pc` into `mepc`, the entry convention on `mstatus`, `pc` from the whole of `mtvec`, the shadow
installed (R122). -/
def enterMachine (s : State) : State :=
  install .shadow
    { s with
      vregs := { s.vregs with mepc := s.pc, mstatus := mstatusOnEntry s.vregs.mstatus }
      mode := .machine
      pc := s.vregs.mtvec }

/-- Return through `sepc`: SIE restored, the mode lowered to SPP when SPP < 1, `pc` from the whole of `sepc` (R125). -/
def returnThroughSepc (s : State) : State :=
  { s with
    vregs := { s.vregs with sstatus := sstatusOnReturn s.vregs.sstatus }
    mode := demote 1 (sppOf s.vregs.sstatus) s.mode
    pc := s.vregs.sepc }

/-- Return through `mepc`: MIE restored, the mode lowered to MPP when MPP < 2, `pc` from the whole of `mepc` (R130). -/
def returnThroughMepc (s : State) : State :=
  { s with
    vregs := { s.vregs with mstatus := mstatusOnReturn s.vregs.mstatus }
    mode := demote 2 (mppOf s.vregs.mstatus) s.mode
    pc := s.vregs.mepc }

/-- `pc <- pc + 4`, modulo 2^64 (R30, R144). -/
def advancePc (s : State) : State := { s with pc := s.pc + instrBytes }

/-! ### Translation and fetch (R64 to R68) -/

/-- `LiveTable()`; none only where the selected handle is absent, which R27 excludes (log 12). -/
def liveTable (s : State) : Option Table :=
  match s.liveSel with
  | .original => some s.origTable
  | .shadow => s.shadowTable
  | .restricted => s.restrictedTable

/-- `Translate(va)` (R65); no permission is checked (D7). -/
def translateAddr (s : State) (va : Word) : Except Raise Word :=
  match liveTable s with
  | none => .error (.stop .absentTable)
  | some t =>
    match t.find (vpnOf va) with
    | none => .error (.internalFault .fetchUnmapped)
    | some e => .ok (e.pa + offOf va)

/-- `Fetch(va)`: alignment, translation, the 32-bit read (R66, R68). -/
def fetch (s : State) (va : Word) : Except Raise InstrWord :=
  if va.extractLsb' 0 2 ≠ 0#2 then .error (.internalFault .fetchMisaligned)
  else
    match translateAddr s va with
    | .error e => .error e
    | .ok pa => .ok (s.mem.readWord pa)

/-! ### The shadow and the restricted table -/

/-- Step 1 of a `TRAP`: build the shadow when its handle is absent; nothing is installed (R110, R111). -/
def ensureShadow (s : State) : Except Raise State :=
  match s.shadowTable with
  | some _ => .ok s
  | none =>
    match buildShadow s.origTable s.guestSize with
    | none => .error (.internalFault .inconsistentGuestMapping)
    | some t => .ok { s with shadowTable := some t }

/-- `PmpSync()`: rebuild the restricted table from the shadow and the present PMP registers, and install it (R131,
R157). -/
def pmpSync (s : State) : Except Raise State :=
  match s.shadowTable with
  | none => .error (.stop .absentTable)
  | some sh =>
    match buildRestricted sh s.guestSize (pmpRegions s.vregs) with
    | none => .error (.internalFault .inconsistentGuestMapping)
    | some t => .ok (install .restricted { s with restrictedTable := some t })

end Sys2Proof.Machine
end

