-- ==== Sys2Proof/Machine/CsrAccess.lean ====
section
/-! DEFINITION. The CSR Access Mediator: CSRRW, the write class, and CSRRS, the read class (spec 43_csr_access.md R140
to R146). `csrWrite` and `csrRead` are the functions R146 speaks of, with `raise` as an error value. -/

namespace Sys2Proof.Machine

/-- Set `pmp_configuration` when the identifier is that of `pmpcfg0` or `pmpaddr0` to `pmpaddr3` (R143). -/
def notePmpWrite (id : CsrId) (s : State) : State :=
  if pmpCodes.contains id then { s with pmpConfiguration := true } else s

/-- `CsrWrite(csr_id, rs1)` (R141). -/
def csrWrite (id : CsrId) (rs1 : RegIdx) (s : State) : Except Raise State :=
  match csrCheck s id with
  | .error e => .error e
  | .ok r => .ok (advancePc (notePmpWrite id (s.writeVReg r (s.readX rs1))))

/-- `CsrRead(csr_id, rd)` (R142). -/
def csrRead (id : CsrId) (rd : RegIdx) (s : State) : Except Raise State :=
  match csrCheck s id with
  | .error e => .error e
  | .ok r => .ok (advancePc (s.writeX rd (s.vregs.get r)))

/-- The meaning of CSRRW; the `rd` field is ignored (R86, D11). -/
def execCsrrw (csr : Imm12) (rs1 _rd : RegIdx) (s : State) : Host.Outcome State Fault Refusal :=
  finish s (csrWrite (csrIdOf csr) rs1 s)

/-- The meaning of CSRRS; the `rs1` field is ignored (R87, D11). -/
def execCsrrs (csr : Imm12) (_rs1 rd : RegIdx) (s : State) : Host.Outcome State Fault Refusal :=
  finish s (csrRead (csrIdOf csr) rd s)

end Sys2Proof.Machine
end

