-- ==== Sys2Proof/Machine/Privilege.lean ====
section
/-! DEFINITION. The Privilege State Machine: ECALL, SRET, MRET (spec 42_privilege_transitions.md R120 to R131). Each
instruction is first a function that answers its next state or what it raises, before any write (R10, R175), and its
meaning finishes that answer. -/

namespace Sys2Proof.Machine

/-- ECALL (R120 to R123). -/
def ecall (s : State) : Except Raise State :=
  match s.mode with
  | .user => .ok (enterSupervisor s)
  | .supervisor => .ok (enterMachine s)
  | .machine => .error (.violation .ecallAtMachine)

/-- SRET (R125). -/
def sret (s : State) : Except Raise State :=
  match s.mode with
  | .supervisor => .ok (returnThroughSepc s)
  | .user => .error (.violation .sretNotSupervisor)
  | .machine => .error (.violation .sretNotSupervisor)

/-- MRET (R130); with `pmp_configuration` set it ends with the synchronisation point (R131). -/
def mret (s : State) : Except Raise State :=
  if s.mode.num < Mode.supervisor.num then .error (.violation .mretAtUser)
  else if s.pmpConfiguration then pmpSync (returnThroughMepc s)
  else .ok (returnThroughMepc s)

/-- The meaning of ECALL. -/
def execEcall (s : State) : Host.Outcome State Fault Refusal := finish s (ecall s)

/-- The meaning of SRET. -/
def execSret (s : State) : Host.Outcome State Fault Refusal := finish s (sret s)

/-- The meaning of MRET. -/
def execMret (s : State) : Host.Outcome State Fault Refusal := finish s (mret s)

end Sys2Proof.Machine
end

