-- ==== Sys2Proof/Machine/Dispatch.lean ====
section
/-! DEFINITION. One arm per instruction, each a direct call of its meaning (spec 41_decode_dispatch.md R110 step 3,
R113). -/

namespace Sys2Proof.Machine

def exec (i : Instr) (s : State) : Host.Outcome State Fault Refusal :=
  match i with
  | .ecall => Sys2Proof.Machine.execEcall s
  | .sret => Sys2Proof.Machine.execSret s
  | .mret => Sys2Proof.Machine.execMret s
  | .csrrw csr rs1 rd => Sys2Proof.Machine.execCsrrw csr rs1 rd s
  | .csrrs csr rs1 rd => Sys2Proof.Machine.execCsrrs csr rs1 rd s

end Sys2Proof.Machine
end

