-- ==== Sys2Proof/Machine/Transactions.lean ====
section
/-! DEFINITION. The transactions `TRAP` and `INIT`, hardware reset and the environment's changes, one host input a step
(spec 00_scope.md R3, R7; 40_register_file.md R102; 41_decode_dispatch.md R110 to R114; 70_reset_and_hazards.md R200,
R203), and how a program is placed for a `TRAP` (log 16). -/

namespace Sys2Proof.Machine

/-- Step 3 of `TRAP` on a fetched word: one arm, or the violation for an unrecognised word (R88, R110, R113). -/
def dispatchWord (w : InstrWord) (s : State) : Host.Outcome State Fault Refusal :=
  match decodeWord w with
  | .ok i => exec i s
  | .error _ => raiseEvent s (.violation .unrecognisedInstruction)

/-- The `TRAP` transaction: lazy shadow, fetch at `pc`, dispatch (R110 to R112). -/
def trapTransaction (s : State) : Host.Outcome State Fault Refusal :=
  match ensureShadow s with
  | .error e => raiseEvent s e
  | .ok t =>
    match fetch t t.pc with
    | .error e => raiseEvent t e
    | .ok w => dispatchWord w t

/-- The `INIT` transaction: `Initialize()` and nothing else (R102). -/
def initTransaction (s : State) : Host.Outcome State Fault Refusal := .next (initContext s)

/-- What one host input does. While `faulted` is 1 the block accepts no `TRAP` and no `INIT` (R34, R102, R110; log 9);
reset and the environment's own changes still happen. -/
def takeInput (i : HostInput) (s : State) : Host.Outcome State Fault Refusal :=
  match i with
  | .trap => if s.faulted then .fault .halted else trapTransaction s
  | .init => if s.faulted then .fault .halted else initTransaction s
  | .reset => .next (hardwareReset s)
  | .setReg r v => .next (s.writeX r v)
  | .setPc v => .next { s with pc := v }
  | .setByte a b => .next { s with mem := s.mem.write a.toNat b }
  | .mapPage vpn e => .next { s with origTable := s.origTable.put vpn.toNat e }
  | .unmapPage vpn => .next { s with origTable := s.origTable.drop vpn.toNat }
  | .setGuestSize n => .next { s with guestSize := n }
  | .freshProcess => .next { s with killed := false }

/-- One step: the oldest input, or `TRAP` where the list is empty (log 1). -/
def takeStep (s : State) : Host.Outcome State Fault Refusal :=
  match s.inputs with
  | [] => takeInput .trap s
  | i :: rest => takeInput i { s with inputs := rest }

/-! ### Placing an instruction (log 16) -/

/-- The entry that maps page `v` to the physical page of the same number. -/
def identityPte (v : Nat) : Pte := ⟨BitVec.ofNat 52 v, 0⟩

/-- `n` identity-mapped pages from page `v` on. -/
def identityPages : Nat → Nat → Table
  | 0, _ => []
  | n + 1, v => (v, identityPte v) :: identityPages n (v + 1)

/-- A table with the kernel window mapped identically and everything else as it was. -/
def withIdentityWindow (t : Table) : Table :=
  t.filter (fun c => decide (c.1 < firstPage kwinBase)) ++
    identityPages (pageCount kwinBase kwinEnd) (firstPage kwinBase) ++
      t.filter (fun c => decide (firstPage kwinBase + pageCount kwinBase kwinEnd ≤ c.1))

/-- Make the next `TRAP`'s lazy construction succeed: nothing where it does, else what the host must have mapped before
the first `TRAP` (R202), with an empty user range. -/
def withBuildableShadow (s : State) : State :=
  match ensureShadow s with
  | .ok _ => s
  | .error _ => { s with guestSize := 0, origTable := withIdentityWindow s.origTable }

/-- Map the page of `va` in a table, identically, unless it is mapped. -/
def mapIfAbsent (t : Table) (va : Word) : Table :=
  match t.find (vpnOf va) with
  | some _ => t
  | none => t.put (vpnOf va) (identityPte (vpnOf va))

/-- Map the page of `va` in the live table unless it is mapped. -/
def withLivePage (s : State) (va : Word) : State :=
  match s.liveSel with
  | .original => { s with origTable := mapIfAbsent s.origTable va }
  | .shadow => { s with shadowTable := some (mapIfAbsent (s.shadowTable.getD []) va) }
  | .restricted => { s with restrictedTable := some (mapIfAbsent (s.restrictedTable.getD []) va) }

/-- Store a word where a fetch at `va` reads it; nothing where the translation fails. -/
def withWordAt (s : State) (va : Word) (w : InstrWord) : State :=
  match translateAddr s va with
  | .error _ => s
  | .ok pa => { s with mem := s.mem.writeWord pa w }

/-- The inputs with `TRAP` next. -/
def withTrapNext : List HostInput → List HostInput
  | [] => []
  | i :: rest => .trap :: i :: rest

/-- The state made ready so that the very next step is a `TRAP` that fetches and runs the word `w`: `faulted` clear,
`pc` aligned, its page live, the shadow present or buildable, the word in memory. -/
def placeWord (s : State) (w : InstrWord) : State :=
  let aligned := { s with faulted := false, inputs := withTrapNext s.inputs, pc := s.pc &&& ~~~ 3#64 }
  let mapped := withBuildableShadow (withLivePage aligned aligned.pc)
  withWordAt mapped mapped.pc w

end Sys2Proof.Machine
end

