-- ==== Sys2Proof/Machine/Step.lean ====
section
/-! DEFINITION. The step of the machine and the placing of one instruction: both only call Machine/Transactions.lean. -/

namespace Sys2Proof.Machine

/-- One step of the machine: one host input, a transaction where it is `TRAP` or `INIT` (R3). -/
def step (s : State) : Host.Outcome State Fault Refusal := takeStep s

/-- The state with the instruction of a table row placed where the next step fetches it (log 16). -/
def State.withFetchWord (s : State) (nbits w : Nat) : State := placeWord s (tableWord nbits w)

end Sys2Proof.Machine
end

