-- ==== Sys2Proof/Safety.lean ====
section
/-! DEFINITION. What counts as a safe run, in the terms the claims use: the invariant of the machine, final states
(spec 70_reset_and_hazards.md R209), and the boot requirements (R202). -/

namespace Sys2Proof.Machine

/-- Every entry of the second table is an entry of the first. -/
abbrev Table.Within (outer inner : Table) : Prop := ∀ c ∈ inner, outer.find c.1 = some c.2

/-- Every page of `PageRange(start, stop)` is mapped. -/
abbrev Table.Covers (t : Table) (start stop : Nat) : Prop :=
  t.copyPages (pageCount start stop) (firstPage start) ≠ none

/-- The live handle is present (R27, R64). -/
abbrev LivePresent (s : State) : Prop := liveTable s ≠ none

/-- What holds of the context while the block is not halted: the live handle is present (R27); a present shadow maps
the kernel window (R153); a restricted table exists only beside the shadow it was duplicated from and after a PMP write,
and holds none but the shadow's entries (R26, R157). -/
structure State.ContextInv (s : State) : Prop where
  livePresent : LivePresent s
  shadowWindow : ∀ t, s.shadowTable = some t → t.Covers kwinBase kwinEnd
  restrictedFlag : s.restrictedTable ≠ none → s.pmpConfiguration = true
  restrictedWithin : ∀ t, s.restrictedTable = some t → ∃ sh, s.shadowTable = some sh ∧ sh.Within t

/-- The invariant: memory and every table are canonical (R60, R61), and while `faulted` is 0 the context's invariant
holds; after an internal fault the context is unspecified (R172). -/
structure State.Inv (s : State) : Prop where
  memWf : s.mem.wf = true
  origWf : s.origTable.wf = true
  shadowWf : ∀ t, s.shadowTable = some t → t.wf = true
  restrictedWf : ∀ t, s.restrictedTable = some t → t.wf = true
  running : s.faulted = false → s.ContextInv

/-- A final state: idle with `faulted` = 0 (R209). -/
abbrev State.Final (s : State) : Prop := s.faulted = false

/-- The next input is `TRAP`: queued, or the default of an empty list (log 1). -/
def State.trapNext (s : State) : Bool :=
  match s.inputs with
  | [] => true
  | .trap :: _ => true
  | _ => false

/-- The state in which the block takes its next input: the input is gone from the list. -/
def State.taken (s : State) : State := { s with inputs := s.inputs.tail }

/-- The boot requirements on the host before the first `TRAP` (R202, items 2 to 4): the original table maps the user
range and the kernel window and is live, and `pc` is aligned and inside one of the two ranges. -/
structure State.BootReady (s : State) : Prop where
  userMapped : s.origTable.Covers 0 s.guestSize.toNat
  windowMapped : s.origTable.Covers kwinBase kwinEnd
  originalLive : s.liveSel = .original
  pcAligned : s.pc.extractLsb' 0 2 = 0#2
  pcInside : inPageRange 0 s.guestSize.toNat (vpnOf s.pc) = true ∨ inPageRange kwinBase kwinEnd (vpnOf s.pc) = true

/-- The reset value of each virtual register (R36, R45, R48). -/
def Csr.resetValue : Csr → Word
  | .mvendorid => Config.mvendoridTag
  | _ => 0

/-- What `Initialize()` leaves of the context: the values of R48 and R100. -/
structure State.ContextReset (t : State) : Prop where
  registers : ∀ r : Csr, t.vregs.get r = r.resetValue
  mode : t.mode = .machine
  flag : t.pmpConfiguration = false
  shadow : t.shadowTable = none
  restricted : t.restrictedTable = none
  live : t.liveSel = .original

/-- `t` holds what `s` holds outside the context and `killed` (and the pulse count): registers, `pc`, memory, the
host's table and size, `faulted`, the inputs. -/
structure State.SameOutside (s t : State) : Prop where
  registers : ∀ i : RegIdx, t.readX i = s.readX i
  pc : t.pc = s.pc
  origTable : t.origTable = s.origTable
  guestSize : t.guestSize = s.guestSize
  mem : ∀ a : Nat, t.mem.read a = s.mem.read a
  faulted : t.faulted = s.faulted
  freeDraws : t.freeDraws = s.freeDraws
  inputs : t.inputs = s.inputs

/-- What the violation sequence makes of `s` (R171): the guest is killed, the context reset, one `tlb_flush` given,
everything else unchanged. -/
structure State.KilledFrom (s t : State) : Prop where
  killed : t.killed = true
  reset : t.ContextReset
  flush : t.tlbFlushes = s.tlbFlushes + 1
  outside : s.SameOutside t

/-- What an internal fault makes of `s` (R172): `faulted` is 1, the guest is not killed, nothing outside the block changes.
Nothing is said of the context and of `pc`, which are unspecified. -/
structure State.HaltedFrom (s t : State) : Prop where
  faulted : t.faulted = true
  killed : t.killed = s.killed
  registers : ∀ i : RegIdx, t.readX i = s.readX i
  origTable : t.origTable = s.origTable
  guestSize : t.guestSize = s.guestSize
  mem : ∀ a : Nat, t.mem.read a = s.mem.read a
  flush : t.tlbFlushes = s.tlbFlushes
  inputs : t.inputs = s.inputs

end Sys2Proof.Machine
end

