-- ==== Sys2Proof/Certificates/Slice0/Obligations.lean ====
section
/-! DEFINITION. The statements about the machine, one per rule or group of rules of the spec. -/

open Sys2Proof Sys2Proof.Machine

/-! ### Encoding (30_encoding.md) -/

/-- A few words written out from the spec's encodings decode to what they stand for (R85 to R87, V-DEC-1 to V-DEC-9). -/
def Obligations.SpecifiedWordsDecode : Prop :=
  decodeWord 0x00000073#32 = .ok .ecall ∧ decodeWord 0x10200073#32 = .ok .sret ∧
  decodeWord 0x30200073#32 = .ok .mret ∧ decodeWord 0x34151073#32 = .ok (.csrrw 0x341#12 10#5 0#5) ∧
  decodeWord 0xF11025F3#32 = .ok (.csrrs 0xF11#12 0#5 11#5) ∧
  decodeWord 0x140515F3#32 = .ok (.csrrw 0x140#12 10#5 11#5)

/-- Decoding the encoding of any instruction gives it back, and the bytes after it are left (R80 to R87). -/
def Obligations.DecodeOfEncodeIsTheInstruction : Prop :=
  ∀ (i : Instr) (rest : List Byte), decode (encode i ++ rest) = .ok (i, rest)

/-- Bytes that decode to an instruction begin with that instruction's encoding: each word has one meaning (R84). -/
def Obligations.EncodeOfDecodeIsTheBytes : Prop :=
  ∀ (bytes rest : List Byte) (i : Instr), decode bytes = .ok (i, rest) → bytes = encode i ++ rest

/-- A word is one of the five instructions exactly when one of the table's match and mask pairs admits it, and every
other word kills the guest and resets the context (R88). -/
def Obligations.OtherWordsAreUnrecognised : Prop :=
  ∀ (w : InstrWord) (s : State),
    ((w = 0x00000073#32 ∨ w = 0x10200073#32 ∨ w = 0x30200073#32 ∨
        w &&& 0x0000707F#32 = 0x00001073#32 ∨ w &&& 0x0000707F#32 = 0x00002073#32) →
      ∃ i, decodeWord w = .ok i) ∧
    (¬ (w = 0x00000073#32 ∨ w = 0x10200073#32 ∨ w = 0x30200073#32 ∨
        w &&& 0x0000707F#32 = 0x00001073#32 ∨ w &&& 0x0000707F#32 = 0x00002073#32) →
      (∃ r, decodeWord w = .error r) ∧ ∃ t, dispatchWord w s = .next t ∧ s.KilledFrom t)

/-- A word of either CSR class decodes to the numbers that stand in bits 31:20, 19:15 and 11:7, and the CSR identifier
is the first of them zero-extended (R81 to R83, R86, R87). -/
def Obligations.CsrWordsDecodeToTheirFields : Prop :=
  ∀ w : InstrWord, ∃ (csr : Imm12) (rs1 rd : RegIdx),
    csr.toNat = w.toNat / 2 ^ 20 ∧ rs1.toNat = w.toNat / 2 ^ 15 % 32 ∧ rd.toNat = w.toNat / 2 ^ 7 % 32 ∧
    (csrIdOf csr).toNat = w.toNat / 2 ^ 20 ∧
    (w &&& 0x0000707F#32 = 0x00001073#32 → decodeWord w = .ok (.csrrw csr rs1 rd)) ∧
    (w &&& 0x0000707F#32 = 0x00002073#32 → decodeWord w = .ok (.csrrs csr rs1 rd))

/-! ### The step (41_decode_dispatch.md, 60_exceptions.md) -/

/-- With `TRAP` next and `faulted` clear, when the shadow is present or built and the word fetched at `pc` decodes to a
well-formed instruction, the step is that instruction's `exec` at the state with the shadow (R110). Around `exec` the
step takes one input off the model's list (log 1, log 2) and puts the shadow in. -/
def Obligations.StepRunsDecodedInstruction : Prop :=
  ∀ (s u : State) (w : InstrWord) (i : Instr),
    s.trapNext = true → s.faulted = false → ensureShadow s.taken = .ok u → fetch u u.pc = .ok w →
    decodeWord w = .ok i → WellFormed i = true → step s = exec i u

/-- A `TRAP` whose word is none of the five instructions kills the guest and resets the context (R88, R110). -/
def Obligations.StepKillsOnUnrecognisedWord : Prop :=
  ∀ (s u : State) (w : InstrWord) (r : DecodeReject),
    s.trapNext = true → s.faulted = false → ensureShadow s.taken = .ok u → fetch u u.pc = .ok w →
    decodeWord w = .error r → ∃ t, step s = .next t ∧ s.taken.KilledFrom t

/-- The first event a `TRAP` reports before any instruction runs, in the order of R174: an absent page during the lazy
construction, whatever `pc` is; then a misaligned `pc`; then a `pc` whose page the live table lacks. Each halts the
block (R172; that the halted state is a next state is the model's choice, log 8). -/
def Obligations.FirstEventOfATrap : Prop :=
  ∀ s : State, s.trapNext = true → s.faulted = false → s.Inv →
    (s.shadowTable = none →
      (∃ v, (inPageRange 0 s.guestSize.toNat v = true ∨ inPageRange kwinBase kwinEnd v = true) ∧
        s.origTable.find v = none) →
      ensureShadow s.taken = .error (.internalFault .inconsistentGuestMapping) ∧
        ∃ t, step s = .next t ∧ s.taken.HaltedFrom t) ∧
    (∀ u, ensureShadow s.taken = .ok u → s.pc.toNat % 4 ≠ 0 →
      fetch u u.pc = .error (.internalFault .fetchMisaligned) ∧ ∃ t, step s = .next t ∧ s.taken.HaltedFrom t) ∧
    (∀ u tbl, ensureShadow s.taken = .ok u → s.pc.toNat % 4 = 0 → liveTable u = some tbl →
      tbl.find (s.pc.toNat / 4096) = none →
      fetch u u.pc = .error (.internalFault .fetchUnmapped) ∧ ∃ t, step s = .next t ∧ s.taken.HaltedFrom t)

/-- While `faulted` is 1 neither `TRAP` nor `INIT` is accepted (R34, R102, R110; the model's fault `halted`, log 9). -/
def Obligations.HaltedBlockAcceptsNothing : Prop :=
  ∀ s : State, s.faulted = true → (s.trapNext = true ∨ s.inputs.head? = some .init) → step s = .fault .halted

/-- The `INIT` transaction is `Initialize()` and nothing else: the values of R100, everything outside unchanged. -/
def Obligations.InitTransactionInitializes : Prop :=
  ∀ s : State, ∃ t, initTransaction s = .next t ∧ t.ContextReset ∧ t.tlbFlushes = s.tlbFlushes + 1 ∧
    t.killed = s.killed ∧ s.SameOutside t

/-- Hardware reset from any state clears `faulted` and initialises the context, an accepted `INIT` is its transaction,
and the state after reset has the same values (R48, R102, R200). That both come through the input list is the model's
choice (log 2). -/
def Obligations.ResetAndInitInitialize : Prop :=
  (∀ s : State, s.inputs.head? = some .reset →
    ∃ t, step s = .next t ∧ t.ContextReset ∧ t.faulted = false ∧ t.tlbFlushes = s.tlbFlushes + 1) ∧
  (∀ s : State, s.faulted = false → s.inputs.head? = some .init → step s = initTransaction s.taken) ∧
  State.reset.ContextReset ∧ State.reset.faulted = false

/-! ### ECALL (42_privilege_transitions.md R120 to R123) -/

/-- ECALL from User (R121): `sepc`, the three `sstatus` bits, the mode and `pc`; nothing else. -/
def Obligations.EcallFromUserEntersSupervisor : Prop :=
  ∀ s : State, s.mode = .user → ∃ t, exec .ecall s = .next t ∧
    t.mode = .supervisor ∧ t.pc = s.vregs.stvec ∧ t.vregs.sepc = s.pc ∧
    t.vregs.sstatus.getLsbD 5 = s.vregs.sstatus.getLsbD 1 ∧ t.vregs.sstatus.getLsbD 1 = false ∧
    t.vregs.sstatus.getLsbD 8 = false ∧
    (∀ k, k ≠ 5 → k ≠ 1 → k ≠ 8 → t.vregs.sstatus.getLsbD k = s.vregs.sstatus.getLsbD k) ∧
    (∀ r : Csr, r ≠ .sepc → r ≠ .sstatus → t.vregs.get r = s.vregs.get r) ∧
    t = { s with vregs := t.vregs, mode := t.mode, pc := t.pc }

/-- ECALL from Supervisor (R122): `mepc`, the four `mstatus` bits, the mode, `pc` and the shadow installed with one
`tlb_flush`; nothing else. -/
def Obligations.EcallFromSupervisorEntersMachine : Prop :=
  ∀ s : State, s.mode = .supervisor → ∃ t, exec .ecall s = .next t ∧
    t.mode = .machine ∧ t.pc = s.vregs.mtvec ∧ t.vregs.mepc = s.pc ∧ t.liveSel = .shadow ∧
    t.tlbFlushes = s.tlbFlushes + 1 ∧
    t.vregs.mstatus.getLsbD 7 = s.vregs.mstatus.getLsbD 3 ∧ t.vregs.mstatus.getLsbD 3 = false ∧
    t.vregs.mstatus.getLsbD 11 = true ∧ t.vregs.mstatus.getLsbD 12 = false ∧
    (∀ k, k ≠ 7 → k ≠ 3 → k ≠ 11 → k ≠ 12 → t.vregs.mstatus.getLsbD k = s.vregs.mstatus.getLsbD k) ∧
    (∀ r : Csr, r ≠ .mepc → r ≠ .mstatus → t.vregs.get r = s.vregs.get r) ∧
    t = { s with vregs := t.vregs, mode := t.mode, pc := t.pc, liveSel := t.liveSel, tlbFlushes := t.tlbFlushes }

/-- ECALL from Machine (R123): raised before any write, the guest killed, the whole context at its reset values, `pc`
unchanged. -/
def Obligations.EcallAtMachineKills : Prop :=
  ∀ s : State, s.mode = .machine →
    ecall s = .error (.violation .ecallAtMachine) ∧ ∃ t, exec .ecall s = .next t ∧ s.KilledFrom t

/-! ### SRET and MRET (R125, R130, R131) -/

/-- SRET in every mode (R125): in Supervisor it restores SIE, demotes to User when bit 8 of `sstatus` is 0 and moves
`pc` to the whole `sepc`; in the other modes it kills the guest. -/
def Obligations.SretInEveryMode : Prop :=
  ∀ s : State,
    (s.mode = .supervisor → ∃ t, exec .sret s = .next t ∧
      t.vregs.sstatus.getLsbD 1 = s.vregs.sstatus.getLsbD 5 ∧
      (∀ k, k ≠ 1 → t.vregs.sstatus.getLsbD k = s.vregs.sstatus.getLsbD k) ∧
      t.mode = (if s.vregs.sstatus.getLsbD 8 then Mode.supervisor else Mode.user) ∧
      t.pc = s.vregs.sepc ∧ (∀ r : Csr, r ≠ .sstatus → t.vregs.get r = s.vregs.get r) ∧
      t = { s with vregs := t.vregs, mode := t.mode, pc := t.pc }) ∧
    (s.mode ≠ .supervisor →
      sret s = .error (.violation .sretNotSupervisor) ∧ ∃ t, exec .sret s = .next t ∧ s.KilledFrom t)

/-- The mode MRET lands in, from the two bits of MPP (R130): 0 is User, 1 is Supervisor, 2 and 3 leave the mode. -/
def Sys2Proof.Machine.mretMode (m : Word) (mode : Mode) : Mode :=
  match m.getLsbD 12, m.getLsbD 11 with
  | false, false => .user
  | false, true => .supervisor
  | true, _ => mode

/-- MRET in every mode (R130): from Supervisor or Machine it restores MIE, demotes to MPP below Machine, moves `pc` to
the whole `mepc`, and with the flag set rebuilds the restricted table from the shadow and installs it with one
`tlb_flush`, or halts the block with the internal fault of that construction (R131, R172); at User it kills the guest.
That the halt is a next state is the model's choice (log 8). -/
def Obligations.MretInEveryMode : Prop :=
  ∀ s : State,
    (s.mode = .user →
      mret s = .error (.violation .mretAtUser) ∧ ∃ t, exec .mret s = .next t ∧ s.KilledFrom t) ∧
    (s.mode ≠ .user → s.pmpConfiguration = false → ∃ t, exec .mret s = .next t ∧
      t.vregs.mstatus.getLsbD 3 = s.vregs.mstatus.getLsbD 7 ∧
      (∀ k, k ≠ 3 → t.vregs.mstatus.getLsbD k = s.vregs.mstatus.getLsbD k) ∧
      t.mode = mretMode s.vregs.mstatus s.mode ∧ t.pc = s.vregs.mepc ∧
      (∀ r : Csr, r ≠ .mstatus → t.vregs.get r = s.vregs.get r) ∧
      t = { s with vregs := t.vregs, mode := t.mode, pc := t.pc }) ∧
    (∀ sh rt, s.mode ≠ .user → s.pmpConfiguration = true → s.shadowTable = some sh →
      buildRestricted sh s.guestSize (pmpRegions s.vregs) = some rt → ∃ t, exec .mret s = .next t ∧
      t.vregs.mstatus.getLsbD 3 = s.vregs.mstatus.getLsbD 7 ∧
      (∀ k, k ≠ 3 → t.vregs.mstatus.getLsbD k = s.vregs.mstatus.getLsbD k) ∧
      t.mode = mretMode s.vregs.mstatus s.mode ∧ t.pc = s.vregs.mepc ∧
      (∀ r : Csr, r ≠ .mstatus → t.vregs.get r = s.vregs.get r) ∧
      t.restrictedTable = some rt ∧ t.liveSel = .restricted ∧ t.tlbFlushes = s.tlbFlushes + 1 ∧
      t = { s with
            vregs := t.vregs
            mode := t.mode
            pc := t.pc
            restrictedTable := t.restrictedTable
            liveSel := t.liveSel
            tlbFlushes := t.tlbFlushes }) ∧
    (∀ sh, s.mode ≠ .user → s.pmpConfiguration = true → s.shadowTable = some sh →
      buildRestricted sh s.guestSize (pmpRegions s.vregs) = none →
      mret s = .error (.internalFault .inconsistentGuestMapping) ∧ ∃ t, exec .mret s = .next t ∧ s.HaltedFrom t)

/-! ### The CSR Access Mediator (43_csr_access.md R140 to R146) -/

/-- The 32 rows of `CSR_TABLE` with name, code, minimum mode and reset value, and no identifier but theirs is known (R36). -/
def Obligations.CsrTableAsSpecified : Prop :=
  csrTable.map (fun r => (r, r.code.toNat, r.minMode.num)) =
    [(.sstatus, 0x100, 1), (.sedeleg, 0x102, 1), (.sideleg, 0x103, 1), (.sie, 0x104, 1), (.stvec, 0x105, 1),
     (.scounteren, 0x106, 1), (.sscratch, 0x140, 1), (.sepc, 0x141, 1), (.scause, 0x142, 1), (.stval, 0x143, 1),
     (.sip, 0x144, 1), (.mvendorid, 0xF11, 2), (.marchid, 0xF12, 2), (.mimpid, 0xF13, 2), (.mhartid, 0xF14, 2),
     (.mstatus, 0x300, 2), (.misa, 0x301, 2), (.medeleg, 0x302, 2), (.mideleg, 0x303, 2), (.mie, 0x304, 2),
     (.mtvec, 0x305, 2), (.mcounteren, 0x306, 2), (.mscratch, 0x340, 2), (.mepc, 0x341, 2), (.mcause, 0x342, 2),
     (.mtval, 0x343, 2), (.mip, 0x344, 2), (.pmpcfg0, 0x3A0, 2), (.pmpaddr0, 0x3B0, 2), (.pmpaddr1, 0x3B1, 2),
     (.pmpaddr2, 0x3B2, 2), (.pmpaddr3, 0x3B3, 2)] ∧
  (∀ r : Csr, lookupCsr r.code = some r) ∧
  (∀ id : CsrId, id ∉ csrTable.map Csr.code → lookupCsr id = none) ∧
  (∀ r : Csr, VRegFile.reset.get r = if r = .mvendorid then Config.mvendoridTag else 0)

/-- `CsrCheck` (R140): an unknown identifier is `UnknownRegister` in every mode; a known one is `InsufficientPrivilege`
below its minimum mode and allowed from it on; in User mode nothing is allowed. -/
def Obligations.CsrCheckDecides : Prop :=
  ∀ (s : State) (id : CsrId),
    ((∀ r : Csr, r.code ≠ id) → csrCheck s id = .error (.violation .unknownRegister)) ∧
    (∀ r : Csr, r.code = id →
      csrCheck s id =
        if s.mode.num < r.minMode.num then .error (.violation .insufficientPrivilege) else .ok r) ∧
    (s.mode = .user → ∀ r : Csr, csrCheck s id ≠ .ok r)

/-- CSRRW in every case (R141, R144): allowed, it stores the whole of `x[rs1]` in the register, sets the flag for the
five PMP registers and advances `pc` by 4 modulo 2^64; refused, it kills the guest with `pc` unchanged. Whatever `rd`
is, no general register changes. -/
def Obligations.CsrrwInEveryCase : Prop :=
  ∀ (s : State) (csr : Imm12) (rs1 rd : RegIdx),
    (∀ r : Csr, r.code = csrIdOf csr → r.minMode.num ≤ s.mode.num → ∃ t, exec (.csrrw csr rs1 rd) s = .next t ∧
      t.vregs.get r = s.readX rs1 ∧ (∀ q : Csr, q ≠ r → t.vregs.get q = s.vregs.get q) ∧
      t.pmpConfiguration =
        (s.pmpConfiguration || decide (csr ∈ [0x3A0#12, 0x3B0#12, 0x3B1#12, 0x3B2#12, 0x3B3#12])) ∧
      t.pc.toNat = (s.pc.toNat + 4) % 2 ^ 64 ∧
      t = { s with vregs := t.vregs, pmpConfiguration := t.pmpConfiguration, pc := t.pc }) ∧
    (∀ r : Csr, r.code = csrIdOf csr → s.mode.num < r.minMode.num →
      csrWrite (csrIdOf csr) rs1 s = .error (.violation .insufficientPrivilege) ∧
      ∃ t, exec (.csrrw csr rs1 rd) s = .next t ∧ s.KilledFrom t) ∧
    ((∀ r : Csr, r.code ≠ csrIdOf csr) →
      csrWrite (csrIdOf csr) rs1 s = .error (.violation .unknownRegister) ∧
      ∃ t, exec (.csrrw csr rs1 rd) s = .next t ∧ s.KilledFrom t)

/-- CSRRS in every case (R142, R144): allowed, it puts the whole register into `x[rd]` (nowhere for `rd` = 0) and
advances `pc` by 4 modulo 2^64, with no virtual register changed whatever `rs1` is; refused, it kills the guest, with
`x[rd]` and `pc` unchanged. -/
def Obligations.CsrrsInEveryCase : Prop :=
  ∀ (s : State) (csr : Imm12) (rs1 rd : RegIdx),
    (∀ r : Csr, r.code = csrIdOf csr → r.minMode.num ≤ s.mode.num → ∃ t, exec (.csrrs csr rs1 rd) s = .next t ∧
      (rd ≠ 0#5 → t.readX rd = s.vregs.get r) ∧ (∀ j : RegIdx, j ≠ rd → t.readX j = s.readX j) ∧
      (rd = 0#5 → ∀ j : RegIdx, t.readX j = s.readX j) ∧
      t.pc.toNat = (s.pc.toNat + 4) % 2 ^ 64 ∧ t = { s with x := t.x, pc := t.pc }) ∧
    (∀ r : Csr, r.code = csrIdOf csr → s.mode.num < r.minMode.num →
      csrRead (csrIdOf csr) rd s = .error (.violation .insufficientPrivilege) ∧
      ∃ t, exec (.csrrs csr rs1 rd) s = .next t ∧ s.KilledFrom t) ∧
    ((∀ r : Csr, r.code ≠ csrIdOf csr) →
      csrRead (csrIdOf csr) rd s = .error (.violation .unknownRegister) ∧
      ∃ t, exec (.csrrs csr rs1 rd) s = .next t ∧ s.KilledFrom t)

/-- A write followed by a read at the same mode returns the value, for every register of the table and every value, with
`pc` advanced by 8 (R145). -/
def Obligations.CsrWriteThenReadReturnsTheValue : Prop :=
  ∀ (s : State) (r : Csr) (csr : Imm12) (a b rd rs1 : RegIdx), r.code = csrIdOf csr → r.minMode.num ≤ s.mode.num →
    b ≠ 0#5 → ∃ t u, exec (.csrrw csr a rd) s = .next t ∧ exec (.csrrs csr rs1 b) t = .next u ∧
      u.readX b = s.readX a ∧ u.pc = s.pc + 8

/-- A refused access fails with `InsufficientPrivilege` before any write: the access functions answer the error and no
state (R146). -/
def Obligations.RefusedAccessAnswersNoState : Prop :=
  ∀ (s : State) (r : Csr) (i : RegIdx), s.mode.num < r.minMode.num →
    csrWrite r.code i s = .error (.violation .insufficientPrivilege) ∧
    csrRead r.code i s = .error (.violation .insufficientPrivilege)

/-- `x[0]` reads as zero and discards writes (R29): a CSR write from it stores zero, a CSR read into it changes no
general register. -/
def Obligations.RegisterZeroIsHardWired : Prop :=
  ∀ (s : State) (v : Word), s.readX 0#5 = 0 ∧ s.writeX 0#5 v = s ∧
    (∀ (csr : Imm12) (rd : RegIdx) (r : Csr), r.code = csrIdOf csr → r.minMode.num ≤ s.mode.num →
      ∃ t, exec (.csrrw csr 0#5 rd) s = .next t ∧ t.vregs.get r = 0) ∧
    (∀ (csr : Imm12) (rs1 : RegIdx) (r : Csr), r.code = csrIdOf csr → r.minMode.num ≤ s.mode.num →
      exec (.csrrs csr rs1 0#5) s = .next { s with pc := s.pc + 4 })

/-- The PMP flag (R143): a step turns it on only by running a CSRRW of one of the five PMP identifiers in Machine mode;
that write turns it on whatever the value, and builds and installs no table. After an internal fault the flag is
unspecified (R172), and the case of a halted block is the model's (log 8). -/
def Obligations.PmpFlagSetOnlyByPmpWrites : Prop :=
  (∀ s t : State, step s = .next t → s.pmpConfiguration = false → t.pmpConfiguration = true →
    s.taken.HaltedFrom t ∨
    (s.mode = .machine ∧ ∃ u w csr rs1 rd, ensureShadow s.taken = .ok u ∧ fetch u u.pc = .ok w ∧
      decodeWord w = .ok (.csrrw csr rs1 rd) ∧ csr ∈ [0x3A0#12, 0x3B0#12, 0x3B1#12, 0x3B2#12, 0x3B3#12])) ∧
  (∀ (s : State) (csr : Imm12) (rs1 rd : RegIdx), s.mode = .machine →
    csr ∈ [0x3A0#12, 0x3B0#12, 0x3B1#12, 0x3B2#12, 0x3B3#12] →
    ∃ t, exec (.csrrw csr rs1 rd) s = .next t ∧ t.pmpConfiguration = true ∧
      t.restrictedTable = s.restrictedTable ∧ t.shadowTable = s.shadowTable ∧ t.liveSel = s.liveSel)

/-- Reading `mvendorid` right after reset gives the tag, whatever the tag is (R45, R142). -/
def Obligations.VendorTagIsReadAfterReset : Prop :=
  ∀ rd : RegIdx, rd ≠ 0#5 → ∃ t, exec (.csrrs 0xF11#12 0#5 rd) State.reset = .next t ∧
    t.readX rd = Config.mvendoridTag

/-! ### Violations and whole-machine rules (42, 60) -/

/-- The violation sequence, the same for every reason (R171): after it the guest is killed and the whole context at its
reset values (R103). -/
def Obligations.ViolationSequenceResetsEverything : Prop :=
  ∀ (s : State) (v : Violation), ∃ t, raiseEvent s (.violation v) = .next t ∧ s.KilledFrom t

/-- In User mode every instruction but ECALL kills the guest (R181). -/
def Obligations.UserModeAdmitsOnlyEcall : Prop :=
  ∀ (i : Instr) (s : State), s.mode = .user → i ≠ .ecall → ∃ t, exec i s = .next t ∧ s.KilledFrom t

/-- Monotonicity (R136): ECALL raises the mode by one level; SRET and MRET never raise it; CSR accesses keep it; and an
instruction that leaves a lower mode for Machine is ECALL from Supervisor or has killed the guest, or has halted the
block, whose mode is then unspecified (R172; the model's choice of a halted state, log 8). -/
def Obligations.ModeChangesAreMonotone : Prop :=
  (∀ s t : State, ecall s = .ok t → t.mode.num = s.mode.num + 1) ∧
  (∀ s t : State, sret s = .ok t → t.mode.num ≤ s.mode.num) ∧
  (∀ s t : State, mret s = .ok t → t.mode.num ≤ s.mode.num) ∧
  (∀ (s t : State) (id : CsrId) (i : RegIdx), csrWrite id i s = .ok t → t.mode = s.mode) ∧
  (∀ (s t : State) (id : CsrId) (i : RegIdx), csrRead id i s = .ok t → t.mode = s.mode) ∧
  (∀ (i : Instr) (s t : State), exec i s = .next t → s.mode ≠ .machine → t.mode = .machine →
    (i = .ecall ∧ s.mode = .supervisor) ∨ s.KilledFrom t ∨ s.HaltedFrom t)

/-- The mode changes by nothing but the events R182 lists: a reset of the context, ECALL one level up, SRET with SPP 0
from Supervisor to User, MRET to its MPP; or by an internal fault, after which it is unspecified (R172; the
model's halted state, log 8). -/
def Obligations.ModeChangesOnlyByTheListedEvents : Prop :=
  ∀ s t : State, step s = .next t → t.mode ≠ s.mode →
    t.ContextReset ∨ s.taken.HaltedFrom t ∨
    ∃ u w i, ensureShadow s.taken = .ok u ∧ fetch u u.pc = .ok w ∧ decodeWord w = .ok i ∧
      ((i = .ecall ∧ s.mode = .user ∧ t.mode = .supervisor) ∨
       (i = .ecall ∧ s.mode = .supervisor ∧ t.mode = .machine) ∨
       (i = .sret ∧ s.mode = .supervisor ∧ s.vregs.sstatus.getLsbD 8 = false ∧ t.mode = .user) ∨
       (i = .mret ∧ s.mode ≠ .user ∧ t.mode = mretMode s.vregs.mstatus s.mode))

/-- In User mode no instruction shows the guest anything of a Machine register: from two states that agree on everything
but the Machine registers, every instruction leads to two states that agree on everything but the registers it left
alone (R140, R181). -/
def Obligations.UserLearnsNoMachineRegister : Prop :=
  ∀ (i : Instr) (s : State) (f : VRegFile), s.mode = .user →
    (∀ r : Csr, r.minMode = .supervisor → f.get r = s.vregs.get r) →
    ∃ t u, exec i s = .next t ∧ exec i { s with vregs := f } = .next u ∧ u = { t with vregs := u.vregs } ∧
      ∀ r : Csr, (r.minMode = .machine ∧ t.vregs.get r = s.vregs.get r ∧ u.vregs.get r = f.get r) ∨
        u.vregs.get r = t.vregs.get r

/-- The round trip of the escalation path (R135): two ECALLs from User, then MRET, then SRET, with anything in between
that keeps the mode and the two recorded previous-privilege fields, go through Supervisor, Machine, Supervisor, User,
where the MRET does not halt the block, which R131 and R172 let it do (the model's halted state, log 8). -/
def Obligations.EscalationRoundTrip : Prop :=
  ∀ s a a' b b' c c' d : State, s.mode = .user → exec .ecall s = .next a →
    a'.mode = a.mode → exec .ecall a' = .next b →
    b'.mode = b.mode → b'.vregs.mstatus.getLsbD 12 = b.vregs.mstatus.getLsbD 12 →
    b'.vregs.mstatus.getLsbD 11 = b.vregs.mstatus.getLsbD 11 → exec .mret b' = .next c → c.faulted = false →
    c'.mode = c.mode → c'.vregs.sstatus.getLsbD 8 = a.vregs.sstatus.getLsbD 8 → exec .sret c' = .next d →
    a.mode = .supervisor ∧ b.mode = .machine ∧ c.mode = .supervisor ∧ d.mode = .user

/-- General registers (R28): the only instruction that changes one is CSRRS, and only `x[rd]`; a halt of the block
changes none, which is the model's choice (log 8). -/
def Obligations.GeneralRegisterFrame : Prop :=
  ∀ (i : Instr) (s t : State), exec i s = .next t → ∀ j : RegIdx,
    (∀ csr rs1, i ≠ .csrrs csr rs1 j) → t.readX j = s.readX j

/-- The block writes no memory and nothing of the host's: whatever instruction runs, every byte of memory reads as
before, and the original table, the guest size and the inputs are as before; `faulted` is as before unless the
instruction has halted the block (R172; the model's halted state, log 8), and `killed` is not cleared (R32, R34, R69,
R70). A byte nothing has written keeps its launch byte (log 7). -/
def Obligations.InstructionsWriteNoMemory : Prop :=
  ∀ (i : Instr) (s t : State), exec i s = .next t →
    (∀ a : Nat, t.mem.read a = s.mem.read a ∧ t.mem.byteAt a = s.mem.byteAt a) ∧ t.origTable = s.origTable ∧
    t.guestSize = s.guestSize ∧ (t.faulted = s.faulted ∨ s.HaltedFrom t) ∧ t.inputs = s.inputs ∧ (s.killed = true → t.killed = true)

/-- Below Machine mode no `TRAP` changes a Machine register, but for `mepc` and `mstatus` through ECALL and MRET, and but
for the reset that kills the guest and for a halt of the block (R140, R172, R181; the model's halted state, log 8). -/
def Obligations.MachineRegistersAreGuarded : Prop :=
  ∀ s t : State, s.trapNext = true → s.mode ≠ .machine → step s = .next t →
    s.taken.KilledFrom t ∨ s.taken.HaltedFrom t ∨
    ∀ r : Csr, r.minMode = .machine → r ≠ .mepc → r ≠ .mstatus → t.vregs.get r = s.vregs.get r

/-- `killed` is cleared by nothing but the host handing over a fresh process (R33, R48; that input is the model's,
log 2). -/
def Obligations.KilledIsNeverClearedByTheBlock : Prop :=
  ∀ s t : State, step s = .next t → s.killed = true → s.inputs.head? ≠ some .freshProcess → t.killed = true

/-- Every instruction but MRET answers a next state from every state and never halts the block. MRET answers one from
every state with a shadow, also where its rebuild raises the internal fault: that the halted state is a next state is the
model's choice (R172; log 8). MRET halts the block only where its rebuild finds a page absent, and it stops only where
there is no shadow to rebuild from, which no run reaches (R113, R131; log 12). -/
def Obligations.OnlyTheRebuildHaltsTheBlock : Prop :=
  (∀ (i : Instr) (s : State), i ≠ .mret → ∃ t, exec i s = .next t ∧ t.faulted = s.faulted) ∧
  (∀ s : State, s.shadowTable ≠ none → ∃ t, exec .mret s = .next t) ∧
  (∀ s t : State, exec .mret s = .next t → t.faulted = s.faulted ∨
    (s.HaltedFrom t ∧ s.mode ≠ .user ∧ s.pmpConfiguration = true ∧
      ∃ sh, s.shadowTable = some sh ∧ buildRestricted sh s.guestSize (pmpRegions s.vregs) = none)) ∧
  (∀ s : State, s.mode ≠ .user → s.pmpConfiguration = true → s.shadowTable = none →
    exec .mret s = .fault .absentTable)

/-! ### Page tables (20_memory.md, 44_shadow_pmp.md) -/

/-- `PageRange` lists, in ascending order, exactly the pages that hold a byte of `[start, stop)`; it is empty for an
empty or inverted range (R63). -/
def Obligations.PageRangeListsTheOverlappedPages : Prop :=
  ∀ start stop : Nat, (pageRange start stop).Pairwise (· < ·) ∧
    (stop ≤ start → pageRange start stop = []) ∧
    ∀ v : Nat, v ∈ pageRange start stop ↔ ∃ b, start ≤ b ∧ b < stop ∧ b / 4096 = v

/-- On canonical tables `duplicate_region` is the spec's loop over the pages, its fault included (R151). -/
def Obligations.DuplicateRegionIsTheLoop : Prop :=
  ∀ (source dest : Table) (start stop : Nat), source.wf = true → dest.wf = true →
    source.duplicateRegion dest start stop = source.duplicateLoop dest start stop

/-- `restrict_region` is the spec's loop over the pages, and applying it twice is applying it once (R152). -/
def Obligations.RestrictRegionIsTheLoop : Prop :=
  ∀ (t : Table) (start stop : Nat), t.restrictRegion start stop = t.restrictLoop start stop ∧
    (t.restrictRegion start stop).restrictRegion start stop = t.restrictRegion start stop

/-- `duplicate_region` is idempotent: applied twice it leaves what it leaves once (R150, R151). -/
def Obligations.DuplicateRegionIsIdempotent : Prop :=
  ∀ (source dest t : Table) (start stop : Nat), source.wf = true → dest.wf = true →
    source.duplicateRegion dest start stop = some t → source.duplicateRegion t start stop = some t

/-- `PmpRegions` (R155): region `i` is there exactly when the first `i + 1` address registers are not zero; it starts at
the previous boundary, or at the base of memory for `i` = 0, ends at its own boundary, and its permission is bits 2:0 of
byte lane `i`. -/
def Obligations.PmpRegionsScanTheRegisters : Prop :=
  ∀ r : VRegFile, (pmpRegions r).length ≤ 4 ∧
    ∀ i : Fin 4, let addr : Fin 4 → Word := ![r.pmpaddr0, r.pmpaddr1, r.pmpaddr2, r.pmpaddr3]
      ((∃ j, j ≤ i ∧ addr j = 0) → (pmpRegions r)[i.val]? = none) ∧
      ((∀ j, j ≤ i → addr j ≠ 0) → ∃ p, (pmpRegions r)[i.val]? = some p ∧
        p.start.toNat = (if i = 0 then 0x80000000 else (addr (i - 1)).toNat * 4 % 2 ^ 64) ∧
        p.stop.toNat = (addr i).toNat * 4 % 2 ^ 64 ∧
        p.perm.toNat = r.pmpcfg0.toNat / 2 ^ (8 * i.val) % 8)

/-- The first `TRAP` after an `Initialize()` builds the shadow from the original table: exactly the pages of the user
range and the kernel window, each with the original's entry; the table is kept by every instruction that does not reset
the context or halt the block (the model's halted state, log 8), and nothing is installed by the construction (R111,
R153). -/
def Obligations.FirstTrapBuildsTheShadow : Prop :=
  ∀ s u : State, s.origTable.wf = true → s.shadowTable = none → ensureShadow s = .ok u →
    u = { s with shadowTable := u.shadowTable } ∧
    (∃ sh, u.shadowTable = some sh ∧ ∀ v, sh.find v =
      if (∃ b, b < s.guestSize.toNat ∧ b / 4096 = v) ∨ (0x80000 ≤ v ∧ v < 0x80400) then s.origTable.find v
      else none) ∧
    ∀ (i : Instr) (t : State), exec i u = .next t → t.shadowTable = u.shadowTable ∨ u.KilledFrom t ∨ u.HaltedFrom t

/-- Once built, the shadow is the same table after every step, until the context is reset or the block halted (R25,
R172; the model's halted state, log 8). -/
def Obligations.ShadowIsNeverModified : Prop :=
  ∀ (s t : State) (sh : Table), step s = .next t → s.shadowTable = some sh →
    t.shadowTable = some sh ∨ t.ContextReset ∨ s.taken.HaltedFrom t

/-- The restricted table changes only at an MRET with the flag set, at a reset of the context, and at a halt of the block
(R26, R131, R172; the model's halted state, log 8). -/
def Obligations.RestrictedTableChangesOnlyAtMret : Prop :=
  ∀ s t : State, step s = .next t → t.restrictedTable ≠ s.restrictedTable →
    t.ContextReset ∨ s.taken.HaltedFrom t ∨ (s.pmpConfiguration = true ∧ t.liveSel = .restricted ∧
      ∃ u w, ensureShadow s.taken = .ok u ∧ fetch u u.pc = .ok w ∧ decodeWord w = .ok .mret)

/-- Which table is live after each instruction (R159), but for a halt of the block (R172; the model's halted state,
log 8). -/
def Obligations.LiveTableFollowsTheEvents : Prop :=
  ∀ (i : Instr) (s t : State), exec i s = .next t →
    (s.KilledFrom t ∧ t.liveSel = .original) ∨ s.HaltedFrom t ∨
    (i = .ecall ∧ s.mode = .supervisor ∧ t.liveSel = .shadow) ∨
    (i = .mret ∧ s.pmpConfiguration = true ∧ t.liveSel = .restricted) ∨
    (t.liveSel = s.liveSel ∧ t.tlbFlushes = s.tlbFlushes ∧ ¬ (i = .ecall ∧ s.mode = .supervisor) ∧
      ¬ (i = .mret ∧ s.pmpConfiguration = true))

/-- The PMP filter is all or nothing and takes the boundaries as virtual ranges (R155 to R157, R161): after an MRET with
the flag set that does not halt the block, an address in a region that lacks read, write or execute is not translated; a
page of the two ranges that overlaps no such region translates as the shadow has it; a page of neither range is not
mapped
Where the block halts, R172 and log 8 speak. -/
def Obligations.PmpFilterIsExact : Prop :=
  ∀ s t : State, s.Inv → s.mode ≠ .user → s.pmpConfiguration = true → exec .mret s = .next t → t.faulted = false →
    ∃ sh rt, s.shadowTable = some sh ∧ liveTable t = some rt ∧
      (∀ (va : Word) (p : PmpRegion), p ∈ pmpRegions s.vregs → p.perm ≠ 7#3 → p.start ≤ va → va < p.stop →
        translateAddr t va = .error (.internalFault .fetchUnmapped)) ∧
      (∀ va : Word, (va.toNat / 4096 * 4096 < s.guestSize.toNat ∨ (0x80000000 ≤ va.toNat ∧ va.toNat < 0x80400000)) →
        (∀ p ∈ pmpRegions s.vregs, p.perm ≠ 7#3 →
          ∀ b : Nat, p.start.toNat ≤ b → b < p.stop.toNat → b / 4096 ≠ va.toNat / 4096) →
        rt.find (va.toNat / 4096) = sh.find (va.toNat / 4096) ∧ sh.find (va.toNat / 4096) ≠ none) ∧
      (∀ v : Nat, s.guestSize.toNat ≤ v * 4096 → ¬ (0x80000 ≤ v ∧ v < 0x80400) → rt.find v = none)

/-! ### Invariants and progress -/

/-- The state after reset meets the invariant. -/
def Obligations.ResetMeetsTheInvariant : Prop := State.reset.Inv

/-- Every step keeps the invariant: memory and tables stay canonical, and while the block is not halted the live handle
stays present and a restricted table never holds an entry the shadow lacks (R26, R27, R61, R64, R157)
That a halted block's tables are canonical is the model's choice (log 8). -/
def Obligations.StepKeepsTheInvariant : Prop :=
  ∀ s t : State, s.Inv → step s = .next t → t.Inv

/-- A host that meets the boot requirements never sees the first `TRAP` halt the block: it completes whatever word the
guest executed (R202)
A halt would be a next state too, by the model's choice (log 8). -/
def Obligations.BootReadyTrapCompletes : Prop :=
  ∀ s : State, s.Inv → s.BootReady → s.shadowTable = none → s.faulted = false → s.trapNext = true →
    ∃ t, step s = .next t ∧ t.faulted = false

/-- What the environment's own inputs change: each its one piece of state and nothing of the context (R7, R28 to R33;
that they come through the input list is the model's choice, log 2). -/
def Obligations.EnvironmentInputsTouchOnlyTheirPart : Prop :=
  ∀ (s : State) (rest : List HostInput),
    (∀ r v, s.inputs = .setReg r v :: rest → ∃ t, step s = .next t ∧ t = { s with x := t.x, inputs := rest } ∧
      ∀ j : RegIdx, t.readX j = if j = r ∧ r ≠ 0#5 then v else s.readX j) ∧
    (∀ v, s.inputs = .setPc v :: rest → step s = .next { s with pc := v, inputs := rest }) ∧
    (∀ a b, s.inputs = .setByte a b :: rest → s.mem.wf = true →
      ∃ t, step s = .next t ∧ t = { s with mem := t.mem, inputs := rest } ∧
        ∀ k : Nat, t.mem.read k = if k = a.toNat then some b else s.mem.read k) ∧
    (∀ vpn e, s.inputs = .mapPage vpn e :: rest → s.origTable.wf = true →
      ∃ t, step s = .next t ∧ t = { s with origTable := t.origTable, inputs := rest } ∧
        ∀ k : Nat, t.origTable.find k = if k = vpn.toNat then some e else s.origTable.find k) ∧
    (∀ vpn, s.inputs = .unmapPage vpn :: rest →
      ∃ t, step s = .next t ∧ t = { s with origTable := t.origTable, inputs := rest } ∧
        ∀ k : Nat, t.origTable.find k = if k = vpn.toNat then none else s.origTable.find k) ∧
    (∀ n, s.inputs = .setGuestSize n :: rest → step s = .next { s with guestSize := n, inputs := rest }) ∧
    (s.inputs = .freshProcess :: rest → step s = .next { s with killed := false, inputs := rest })

/-! ### The fetch and the internal fault (20_memory.md R65 to R67, 60_exceptions.md R172) -/

/-- `Fetch` in every case (R65 to R67): a misaligned address and an unmapped page raise their faults, in this order; else
the word is the little-endian number of the four bytes at the translated address. A written byte reads as written; an unwritten one reads as its launch byte, whatever that is (log 7). Without a
live table, which R27 excludes, an aligned fetch is the model's own stop (log 12). -/
def Obligations.FetchReadsTheLittleEndianWord : Prop :=
  ∀ (u : State) (va : Word),
    (va.toNat % 4 ≠ 0 → fetch u va = .error (.internalFault .fetchMisaligned)) ∧
    (∀ tbl, va.toNat % 4 = 0 → liveTable u = some tbl → tbl.find (va.toNat / 4096) = none →
      fetch u va = .error (.internalFault .fetchUnmapped)) ∧
    (∀ tbl e, va.toNat % 4 = 0 → liveTable u = some tbl → tbl.find (va.toNat / 4096) = some e →
      let byte : Nat → Nat := fun k => (u.mem.byteAt (e.pa.toNat + va.toNat % 4096 + k)).toNat
      ∃ w, fetch u va = .ok w ∧ w.toNat = byte 0 + 2 ^ 8 * byte 1 + 2 ^ 16 * byte 2 + 2 ^ 24 * byte 3) ∧
    (va.toNat % 4 = 0 → liveTable u = none → fetch u va = .error (.stop .absentTable)) ∧
    (∀ (a : Nat) (b : Byte), u.mem.read a = some b → u.mem.byteAt a = b) ∧
    (∀ a : Nat, u.mem.read a = none → u.mem.byteAt a = Config.launchByte a)

/-- The internal fault (R34, R172): raised, it sets `faulted`, leaves `killed` and everything outside the block as it was;
no step but such a fault in a `TRAP` sets the flag, and no step but hardware reset clears it. The rest of the block is
unspecified then, and the model's free values stand for it (log 8). -/
def Obligations.InternalFaultHaltsTheBlock : Prop :=
  (∀ (s : State) (r : InternalFault), ∃ t, raiseEvent s (.internalFault r) = .next t ∧ s.HaltedFrom t) ∧
  (∀ s t : State, step s = .next t → s.faulted = false → t.faulted = true →
    s.trapNext = true ∧ s.taken.HaltedFrom t) ∧
  (∀ s t : State, step s = .next t → s.faulted = true → s.inputs.head? ≠ some .reset → t.faulted = true)

/-- A page-table entry (R62): its `pa` is a multiple of `PGSIZE`, every such address with every flags value is an entry,
and the two are the whole entry; so a translated address has the offset of the address it translates (R65). That `flags`
is a natural number is the model's choice (log 11). -/
def Obligations.EntriesArePageAligned : Prop :=
  (∀ e : Pte, e.pa.toNat % 4096 = 0) ∧
  (∀ (a : Word) (f : Nat), a.toNat % 4096 = 0 → ∃ e : Pte, e.pa = a ∧ e.flags = f) ∧
  (∀ e f : Pte, e.pa = f.pa → e.flags = f.flags → e = f) ∧
  (∀ (s : State) (va pa : Word), translateAddr s va = .ok pa → pa.toNat % 4096 = va.toNat % 4096)
end

