-- ==== Sys2Proof/Laws/Assoc.lean ====
section
/-! SUPPORT. What the operations of finite maps do: lookups after an update, and that every update keeps the canonical
form. -/

namespace Sys2Proof.Machine

variable {α : Type}

theorem Assoc.rising_cons (a : Nat × α) (t : List (Nat × α)) :
    Assoc.rising (a :: t) = true ↔ (∀ c ∈ t, a.1 < c.1) ∧ Assoc.rising t = true := by
  induction t generalizing a with
  | nil => simp [Assoc.rising]
  | cons b t ih =>
    rw [Assoc.rising, Bool.and_eq_true, decide_eq_true_iff, ih]
    constructor
    · rintro ⟨hab, hb, ht⟩
      refine ⟨?_, hb, ht⟩
      intro c hc
      rcases List.mem_cons.1 hc with rfl | hc
      · exact hab
      · exact Nat.lt_trans hab (hb c hc)
    · rintro ⟨ha, hb, ht⟩
      exact ⟨ha b (List.mem_cons_self ..), hb, ht⟩

theorem Assoc.rising_iff_pairwise (m : List (Nat × α)) :
    Assoc.rising m = true ↔ m.Pairwise (fun a b => a.1 < b.1) := by
  induction m with
  | nil => simp [Assoc.rising]
  | cons a t ih => rw [Assoc.rising_cons, List.pairwise_cons, ih]

@[simp] theorem Assoc.find_nil (a : Nat) : Assoc.find ([] : List (Nat × α)) a = none := rfl

@[simp] theorem Assoc.find_cons (k : Nat) (v : α) (t : List (Nat × α)) (a : Nat) :
    Assoc.find ((k, v) :: t) a = if k = a then some v else Assoc.find t a := rfl

/-- A value found is listed. -/
theorem Assoc.mem_of_find {m : List (Nat × α)} {a : Nat} {v : α} (h : Assoc.find m a = some v) : (a, v) ∈ m := by
  induction m with
  | nil => cases h
  | cons c t ih =>
    obtain ⟨k, w⟩ := c
    rw [Assoc.find_cons] at h
    split at h
    · next hk => cases h; subst hk; exact List.mem_cons_self ..
    · exact List.mem_cons_of_mem _ (ih h)

theorem Assoc.find_eq_none_iff (m : List (Nat × α)) (a : Nat) :
    Assoc.find m a = none ↔ ∀ c ∈ m, c.1 ≠ a := by
  induction m with
  | nil => simp
  | cons c t ih =>
    obtain ⟨k, w⟩ := c
    by_cases hk : k = a <;> simp [hk, ih]

/-- In a canonical map, listed and found are the same. -/
theorem Assoc.find_eq_some_iff {m : List (Nat × α)} (hm : Assoc.rising m = true) (a : Nat) (v : α) :
    Assoc.find m a = some v ↔ (a, v) ∈ m := by
  refine ⟨Assoc.mem_of_find, fun h => ?_⟩
  induction m with
  | nil => cases h
  | cons c t ih =>
    obtain ⟨k, w⟩ := c
    rw [Assoc.rising_cons] at hm
    rcases List.mem_cons.1 h with h | h
    · cases h; simp
    · have := hm.1 _ h
      rw [Assoc.find_cons, if_neg (by simp only at this; omega)]
      exact ih hm.2 h

/-- Two canonical maps with the same lookups are the same list. -/
theorem Assoc.ext {m n : List (Nat × α)} (hm : Assoc.rising m = true) (hn : Assoc.rising n = true)
    (h : ∀ a, Assoc.find m a = Assoc.find n a) : m = n := by
  have pm := (Assoc.rising_iff_pairwise m).1 hm
  have pn := (Assoc.rising_iff_pairwise n).1 hn
  have hp : m.Perm n := by
    refine (List.perm_ext_iff_of_nodup ?_ ?_).2 ?_
    · exact pm.imp fun hab => by rintro rfl; exact absurd hab (Nat.lt_irrefl _)
    · exact pn.imp fun hab => by rintro rfl; exact absurd hab (Nat.lt_irrefl _)
    · rintro ⟨a, v⟩
      rw [← Assoc.find_eq_some_iff hm, ← Assoc.find_eq_some_iff hn, h]
  exact hp.eq_of_pairwise (fun a b _ _ hab hba => absurd hab (Nat.lt_asymm hba)) pm pn

@[simp] theorem Assoc.find_put (m : List (Nat × α)) (hm : Assoc.rising m = true) (a : Nat) (v : α) (b : Nat) :
    Assoc.find (Assoc.put m a v) b = if a = b then some v else Assoc.find m b := by
  induction m with
  | nil => simp [Assoc.put]
  | cons c t ih =>
    obtain ⟨k, w⟩ := c
    rw [Assoc.rising_cons] at hm
    rw [Assoc.put]
    split
    · rw [Assoc.find_cons]
    · split
      · next hak =>
        subst hak
        by_cases hb : a = b <;> simp [hb]
      · rw [Assoc.find_cons, ih hm.2, Assoc.find_cons]
        by_cases hk : k = b
        · rw [if_pos hk, if_pos hk, if_neg (by omega)]
        · rw [if_neg hk, if_neg hk]

theorem Assoc.mem_put {m : List (Nat × α)} {a : Nat} {v : α} {c : Nat × α} (h : c ∈ Assoc.put m a v) :
    c = (a, v) ∨ c ∈ m := by
  induction m with
  | nil => simpa [Assoc.put] using h
  | cons d t ih =>
    obtain ⟨k, w⟩ := d
    rw [Assoc.put] at h
    split at h
    · simpa using h
    · split at h
      · rcases List.mem_cons.1 h with h | h
        · exact .inl h
        · exact .inr (List.mem_cons_of_mem _ h)
      · rcases List.mem_cons.1 h with h | h
        · exact .inr (h ▸ List.mem_cons_self ..)
        · exact (ih h).imp_right (List.mem_cons_of_mem _)

theorem Assoc.rising_put {m : List (Nat × α)} (hm : Assoc.rising m = true) (a : Nat) (v : α) :
    Assoc.rising (Assoc.put m a v) = true := by
  induction m with
  | nil => rfl
  | cons c t ih =>
    obtain ⟨k, w⟩ := c
    have hm' := (Assoc.rising_cons _ _).1 hm
    rw [Assoc.put]
    split
    · next hak =>
      refine (Assoc.rising_cons _ _).2 ⟨fun c hc => ?_, hm⟩
      rcases List.mem_cons.1 hc with rfl | hc
      · exact hak
      · exact Nat.lt_trans hak (hm'.1 c hc)
    · split
      · next hak => subst hak; exact (Assoc.rising_cons _ _).2 hm'
      · refine (Assoc.rising_cons _ _).2 ⟨fun c hc => ?_, ih hm'.2⟩
        rcases Assoc.mem_put hc with rfl | hc
        · simp only; omega
        · exact hm'.1 c hc

theorem Assoc.rising_filter {m : List (Nat × α)} (hm : Assoc.rising m = true) (p : Nat × α → Bool) :
    Assoc.rising (m.filter p) = true := by
  rw [Assoc.rising_iff_pairwise] at hm ⊢
  exact hm.sublist List.filter_sublist

/-- Keeping the keys that satisfy a test: lookups there are unchanged, elsewhere nothing is left. -/
theorem Assoc.find_filter (m : List (Nat × α)) (p : Nat → Bool) (a : Nat) :
    Assoc.find (m.filter fun c => p c.1) a = if p a = true then Assoc.find m a else none := by
  induction m with
  | nil => simp
  | cons c t ih =>
    obtain ⟨k, w⟩ := c
    rw [List.filter_cons]
    by_cases hk : k = a
    · subst hk
      by_cases hp : p k = true <;> simp [hp, ih]
    · by_cases hp : p k = true <;> simp [hp, hk, ih]

theorem Assoc.find_drop (m : List (Nat × α)) (a b : Nat) :
    Assoc.find (Assoc.drop m a) b = if a = b then none else Assoc.find m b := by
  rw [Assoc.drop, Assoc.find_filter m (fun k => k != a)]
  by_cases h : a = b
  · subst h; simp
  · rw [if_neg h, if_pos (bne_iff_ne.2 (Ne.symm h))]

theorem Assoc.find_append (m n : List (Nat × α)) (a : Nat) :
    Assoc.find (m ++ n) a = (Assoc.find m a).or (Assoc.find n a) := by
  induction m with
  | nil => simp
  | cons c t ih =>
    obtain ⟨k, w⟩ := c
    by_cases hk : k = a <;> simp [hk, ih]

theorem Assoc.rising_append {m n : List (Nat × α)} (hm : Assoc.rising m = true) (hn : Assoc.rising n = true)
    (h : ∀ c ∈ m, ∀ d ∈ n, c.1 < d.1) : Assoc.rising (m ++ n) = true := by
  rw [Assoc.rising_iff_pairwise] at *
  exact List.pairwise_append.2 ⟨hm, hn, h⟩

end Sys2Proof.Machine
end

