-- ==== Sys2Proof/Laws/Memory.lean ====
section
/-! SUPPORT. Physical memory: a read after a write, and that a write keeps the canonical form (spec 20_memory.md R60,
R66, R67). -/

namespace Sys2Proof.Machine

theorem Memory.wf_iff (m : Memory) :
    m.wf = true ↔ Assoc.rising m = true ∧ ∀ c ∈ m, c.1 < 2 ^ 64 := by
  simp [Memory.wf]

theorem Memory.read_write {m : Memory} (hm : m.wf = true) (a : Nat) (b : Byte) (a' : Nat) :
    (m.write a b).read a' = if a = a' then some b else m.read a' :=
  Assoc.find_put m ((Memory.wf_iff m).1 hm).1 a b a'

/-- `Mem[a']` after a write at `a` (R60). -/
theorem Memory.byteAt_write {m : Memory} (hm : m.wf = true) (a : Nat) (b : Byte) (a' : Nat) :
    (m.write a b).byteAt a' = if a = a' then b else m.byteAt a' := by
  by_cases h : a = a' <;> simp [Memory.byteAt, Memory.read_write hm, h]

/-- Four bytes make the little-endian number of their values (R67). -/
theorem toNat_wordOfBytes (b0 b1 b2 b3 : Byte) :
    (wordOfBytes b0 b1 b2 b3).toNat = b0.toNat + 2 ^ 8 * b1.toNat + 2 ^ 16 * b2.toNat + 2 ^ 24 * b3.toNat := by
  have h0 := b0.isLt
  have h1 := b1.isLt
  have h2 := b2.isLt
  simp only [wordOfBytes, BitVec.toNat_append]
  rw [← Nat.shiftLeft_add_eq_or_of_lt h2, ← Nat.shiftLeft_add_eq_or_of_lt h1, ← Nat.shiftLeft_add_eq_or_of_lt h0]
  simp only [Nat.shiftLeft_eq]
  omega

theorem Memory.wf_write {m : Memory} (hm : m.wf = true) {a : Nat} (ha : a < 2 ^ 64) (b : Byte) :
    (m.write a b).wf = true := by
  rw [Memory.wf_iff] at *
  refine ⟨Assoc.rising_put hm.1 a b, fun c hc => ?_⟩
  rcases Assoc.mem_put hc with rfl | hc
  · exact ha
  · exact hm.2 c hc

theorem Memory.wf_writeWord {m : Memory} (hm : m.wf = true) (pa : Word) (w : InstrWord) :
    (m.writeWord pa w).wf = true :=
  Memory.wf_write (Memory.wf_write (Memory.wf_write (Memory.wf_write hm (BitVec.isLt _) _) (BitVec.isLt _) _)
    (BitVec.isLt _) _) (BitVec.isLt _) _

/-- A word is what its four bytes make. -/
theorem wordOfBytes_byteOfWord (w : InstrWord) :
    wordOfBytes (byteOfWord w 0) (byteOfWord w 1) (byteOfWord w 2) (byteOfWord w 3) = w := by
  apply BitVec.eq_of_getLsbD_eq
  intro i hi
  simp only [wordOfBytes, byteOfWord, BitVec.getLsbD_append, BitVec.getLsbD_extractLsb']
  rcases (by omega : i < 8 ∨ 8 ≤ i ∧ i < 16 ∨ 16 ≤ i ∧ i < 24 ∨ 24 ≤ i ∧ i < 32) with h | h | h | h
  · simp [h]
  · simp [show ¬ i < 8 by omega, show i - 8 < 8 by omega, show 8 + (i - 8) = i by omega]
  · simp [show ¬ i < 8 by omega, show ¬ i - 8 < 8 by omega, show i - 8 - 8 < 8 by omega,
      show 16 + (i - 8 - 8) = i by omega]
  · simp [show ¬ i < 8 by omega, show ¬ i - 8 < 8 by omega, show ¬ i - 8 - 8 < 8 by omega,
      show i - 8 - 8 - 8 < 8 by omega, show 24 + (i - 8 - 8 - 8) = i by omega]

/-- The word stored is the word read. -/
theorem Memory.readWord_writeWord {m : Memory} (hm : m.wf = true) (pa : Word) (w : InstrWord) :
    (m.writeWord pa w).readWord pa = w := by
  have w1 := Memory.wf_write hm pa.isLt (byteOfWord w 0)
  have w2 := Memory.wf_write w1 (pa + 1).isLt (byteOfWord w 1)
  have w3 := Memory.wf_write w2 (pa + 2).isLt (byteOfWord w 2)
  have n01 : (pa + 1).toNat ≠ pa.toNat := by bv_omega
  have n02 : (pa + 2).toNat ≠ pa.toNat := by bv_omega
  have n03 : (pa + 3).toNat ≠ pa.toNat := by bv_omega
  have n12 : (pa + 2).toNat ≠ (pa + 1).toNat := by bv_omega
  have n13 : (pa + 3).toNat ≠ (pa + 1).toNat := by bv_omega
  have n23 : (pa + 3).toNat ≠ (pa + 2).toNat := by bv_omega
  simp only [Memory.readWord, Memory.writeWord, Memory.byteAt_write w3, Memory.byteAt_write w2, Memory.byteAt_write w1,
    Memory.byteAt_write hm, if_neg n01, if_neg n02, if_neg n03, if_neg n12, if_neg n13, if_neg n23, if_true]
  rw [wordOfBytes_byteOfWord]

end Sys2Proof.Machine
end

