-- ==== Sys2Proof/Laws/PerInstr.lean ====
section
/-! SUPPORT. One statement about every instruction as syntax: its encoding lies in the I-type SYSTEM layout (spec
30_encoding.md R80, R81, R84 to R87). -/

namespace Sys2Proof

/-- The encoding of an instruction is four bytes, passes the checks of a well-formed word, and carries the SYSTEM
opcode. -/
def Laws.EncodingLayout.Statement (i : Instr) : Prop :=
  (encode i).length = 4 ∧ fieldOpcode (encodeWord i) = opcodeSystem ∧ wordChecks (encodeWord i) = true

theorem Laws.fieldOpcode_packWord (imm : Imm12) (rs1 : RegIdx) (f : BitVec 3) (rd : RegIdx) :
    fieldOpcode (packWord imm rs1 f rd) = opcodeSystem := by
  apply BitVec.eq_of_getLsbD_eq
  intro i hi
  simp only [fieldOpcode, packWord, BitVec.getLsbD_extractLsb', BitVec.getLsbD_append, Nat.zero_add, hi, decide_true,
    Bool.true_and, if_true]

theorem Laws.fieldFunct3_packWord (imm : Imm12) (rs1 : RegIdx) (f : BitVec 3) (rd : RegIdx) :
    fieldFunct3 (packWord imm rs1 f rd) = f := by
  apply BitVec.eq_of_getLsbD_eq
  intro i hi
  have h1 : ¬ 12 + i < 7 := by omega
  have h2 : ¬ 12 + i - 7 < 5 := by omega
  have h4 : 12 + i - 7 - 5 = i := by omega
  simp only [fieldFunct3, packWord, BitVec.getLsbD_extractLsb', BitVec.getLsbD_append, hi, h1, h2, h4, decide_true,
    Bool.true_and, if_true, if_false]

theorem Laws.wordChecks_of_fields {w : InstrWord} (ho : fieldOpcode w = opcodeSystem) {f : BitVec 3}
    (hf : fieldFunct3 w = f) (h3 : f.toNat < 3) (h0 : f ≠ 0#3) : wordChecks w = true := by
  subst hf
  simp only [fieldOpcode, opcodeSystem, fieldFunct3] at *
  rw [wordChecks, opcodeIsSystem, funct3IsAdmitted, fixedWordIsExact, ho, decide_eq_true h3, bne_iff_ne.2 h0]
  rfl

theorem Laws.EncodingLayout.ecall : Laws.EncodingLayout.Statement .ecall := by
  unfold Laws.EncodingLayout.Statement; decide

theorem Laws.EncodingLayout.sret : Laws.EncodingLayout.Statement .sret := by
  unfold Laws.EncodingLayout.Statement; decide

theorem Laws.EncodingLayout.mret : Laws.EncodingLayout.Statement .mret := by
  unfold Laws.EncodingLayout.Statement; decide

theorem Laws.EncodingLayout.csrrw (csr : Imm12) (rs1 rd : RegIdx) :
    Laws.EncodingLayout.Statement (.csrrw csr rs1 rd) :=
  ⟨rfl, Laws.fieldOpcode_packWord .., Laws.wordChecks_of_fields (Laws.fieldOpcode_packWord ..)
    (Laws.fieldFunct3_packWord ..) (by decide) (by decide)⟩

theorem Laws.EncodingLayout.csrrs (csr : Imm12) (rs1 rd : RegIdx) :
    Laws.EncodingLayout.Statement (.csrrs csr rs1 rd) :=
  ⟨rfl, Laws.fieldOpcode_packWord .., Laws.wordChecks_of_fields (Laws.fieldOpcode_packWord ..)
    (Laws.fieldFunct3_packWord ..) (by decide) (by decide)⟩

end Sys2Proof
end

