-- ==== Sys2Proof/Laws/Decode.lean ====
section
/-! SUPPORT. The fields of a packed word, a word from its fields, bytes and words (spec 30_encoding.md R81, R82;
20_memory.md R67), and what the decoder's branches are. -/

namespace Sys2Proof

theorem fieldImm12_packWord (imm : Imm12) (rs1 : RegIdx) (f : BitVec 3) (rd : RegIdx) :
    fieldImm12 (packWord imm rs1 f rd) = imm := by
  apply BitVec.eq_of_getLsbD_eq
  intro i hi
  have h1 : ¬ 20 + i < 7 := by omega
  have h2 : ¬ 20 + i - 7 < 5 := by omega
  have h3 : ¬ 20 + i - 7 - 5 < 3 := by omega
  have h4 : ¬ 20 + i - 7 - 5 - 3 < 5 := by omega
  have h5 : 20 + i - 7 - 5 - 3 - 5 = i := by omega
  simp only [fieldImm12, packWord, BitVec.getLsbD_extractLsb', BitVec.getLsbD_append, hi, h1, h2, h3, h4, h5,
    decide_true, Bool.true_and, if_false]

theorem fieldRs1_packWord (imm : Imm12) (rs1 : RegIdx) (f : BitVec 3) (rd : RegIdx) :
    fieldRs1 (packWord imm rs1 f rd) = rs1 := by
  apply BitVec.eq_of_getLsbD_eq
  intro i hi
  have h1 : ¬ 15 + i < 7 := by omega
  have h2 : ¬ 15 + i - 7 < 5 := by omega
  have h3 : ¬ 15 + i - 7 - 5 < 3 := by omega
  have h4 : 15 + i - 7 - 5 - 3 = i := by omega
  simp only [fieldRs1, packWord, BitVec.getLsbD_extractLsb', BitVec.getLsbD_append, hi, h1, h2, h3, h4, decide_true,
    Bool.true_and, if_true, if_false]

theorem fieldRd_packWord (imm : Imm12) (rs1 : RegIdx) (f : BitVec 3) (rd : RegIdx) :
    fieldRd (packWord imm rs1 f rd) = rd := by
  apply BitVec.eq_of_getLsbD_eq
  intro i hi
  have h1 : ¬ 7 + i < 7 := by omega
  have h4 : 7 + i - 7 = i := by omega
  simp only [fieldRd, packWord, BitVec.getLsbD_extractLsb', BitVec.getLsbD_append, hi, h1, h4, decide_true,
    Bool.true_and, if_true, if_false]

/-- A word of the SYSTEM opcode is what its fields make. -/
theorem packWord_fields {w : InstrWord} (h : fieldOpcode w = opcodeSystem) :
    packWord (fieldImm12 w) (fieldRs1 w) (fieldFunct3 w) (fieldRd w) = w := by
  rw [packWord, ← h]
  apply BitVec.eq_of_getLsbD_eq
  intro i hi
  simp only [fieldImm12, fieldRs1, fieldFunct3, fieldRd, fieldOpcode, BitVec.getLsbD_append,
    BitVec.getLsbD_extractLsb']
  split_ifs with h1 h2 h3 h4
  · simp [h1]
  · simp [h2, show 7 + (i - 7) = i by omega]
  · simp [h3, show 12 + (i - 7 - 5) = i by omega]
  · simp [h4, show 15 + (i - 7 - 5 - 3) = i by omega]
  · simp [show i - 7 - 5 - 3 - 5 < 12 by omega, show 20 + (i - 7 - 5 - 3 - 5) = i by omega]

/-- The bytes of four bytes read as a word are the four bytes. -/
theorem bytesOfWord_wordOfBytes (a b c d : Byte) : bytesOfWord (wordOfBytes a b c d) = [a, b, c, d] := by
  simp only [bytesOfWord, List.cons.injEq, and_true]
  refine ⟨?_, ?_, ?_, ?_⟩ <;> apply BitVec.eq_of_getLsbD_eq <;> intro i hi <;>
    simp only [byteOfWord, wordOfBytes, BitVec.getLsbD_extractLsb', BitVec.getLsbD_append]
  · simp [hi]
  · simp [hi, show ¬ 8 + i < 8 by omega, show 8 + i - 8 = i by omega]
  · simp [hi, show ¬ 16 + i < 8 by omega, show ¬ 16 + i - 8 < 8 by omega, show 16 + i - 8 - 8 = i by omega]
  · simp [hi, show ¬ 24 + i < 8 by omega, show ¬ 24 + i - 8 < 8 by omega, show ¬ 24 + i - 8 - 8 < 8 by omega,
      show 24 + i - 8 - 8 - 8 = i by omega]

/-- A match under the mask `0x707F` is a test of the opcode and of `funct3` (R86, R87). -/
theorem maskMatch_iff_fields (w : InstrWord) (f : BitVec 3) :
    w &&& 0x0000707F#32 = 0x73#32 ||| (f.setWidth 32 <<< 12) ↔
      fieldOpcode w = opcodeSystem ∧ fieldFunct3 w = f := by
  constructor
  · intro h
    constructor
    · have := congrArg (BitVec.extractLsb' 0 7) h
      rw [BitVec.extractLsb'_and, BitVec.extractLsb'_or] at this
      have e1 : BitVec.extractLsb' 0 7 0x0000707F#32 = BitVec.allOnes 7 := by decide
      have e2 : BitVec.extractLsb' 0 7 (BitVec.setWidth 32 f <<< 12) = 0#7 := by
        clear * -; revert f; decide
      rw [e1, e2, BitVec.and_allOnes, BitVec.or_zero] at this
      exact this
    · have := congrArg (BitVec.extractLsb' 12 3) h
      rw [BitVec.extractLsb'_and] at this
      have e1 : BitVec.extractLsb' 12 3 0x0000707F#32 = BitVec.allOnes 3 := by decide
      have e2 : BitVec.extractLsb' 12 3 (0x73#32 ||| BitVec.setWidth 32 f <<< 12) = f := by
        clear * -; revert f; decide
      rw [e1, e2, BitVec.and_allOnes] at this
      exact this
  · rintro ⟨h1, rfl⟩
    conv_lhs => rw [← packWord_fields h1]
    rw [packWord]
    apply BitVec.eq_of_getLsbD_eq
    intro i hi
    simp only [BitVec.getLsbD_and, BitVec.getLsbD_or, BitVec.getLsbD_append, BitVec.getLsbD_shiftLeft,
      BitVec.getLsbD_setWidth, opcodeSystem]
    interval_cases i <;> simp

end Sys2Proof
end

