-- ==== Sys2Proof/Laws/Flags.lean ====
section
/-! SUPPORT. What the status-register operations do to every bit (spec 10_state.md R39, R40). -/

namespace Sys2Proof.Machine

theorem getLsbD_setBit (v : Word) (i : Nat) (b : Bool) (k : Nat) :
    (setBit v i b).getLsbD k = if k = i ∧ k < 64 then b else v.getLsbD k := by
  by_cases h : k < 64
  · by_cases hk : k = i
    · subst hk; cases b <;> simp [setBit, h]
    · cases b <;> simp [setBit, hk, h]
  · simp [h, BitVec.getLsbD_of_ge _ _ (Nat.le_of_not_lt h)]

/-- Every bit of `sstatus` after a virtual trap from User (R121). -/
theorem getLsbD_sstatusOnEntry (s : Word) (k : Nat) :
    (sstatusOnEntry s).getLsbD k =
      if k = 8 then false else if k = 1 then false else if k = 5 then s.getLsbD 1 else s.getLsbD k := by
  simp only [sstatusOnEntry, getLsbD_setBit, bitSie, bitSpie, bitSpp]
  split_ifs <;> simp_all

/-- Every bit of `mstatus` after a virtual trap from Supervisor (R122). -/
theorem getLsbD_mstatusOnEntry (m : Word) (k : Nat) :
    (mstatusOnEntry m).getLsbD k =
      if k = 12 then false else if k = 11 then true else if k = 3 then false
      else if k = 7 then m.getLsbD 3 else m.getLsbD k := by
  simp only [mstatusOnEntry, getLsbD_setBit, bitMie, bitMpie, bitMpp]
  split_ifs <;> simp_all

/-- Every bit of `sstatus` after SRET (R125). -/
theorem getLsbD_sstatusOnReturn (s : Word) (k : Nat) :
    (sstatusOnReturn s).getLsbD k = if k = 1 then s.getLsbD 5 else s.getLsbD k := by
  simp only [sstatusOnReturn, getLsbD_setBit, bitSie, bitSpie]
  split_ifs <;> simp_all

/-- Every bit of `mstatus` after MRET (R130). -/
theorem getLsbD_mstatusOnReturn (m : Word) (k : Nat) :
    (mstatusOnReturn m).getLsbD k = if k = 3 then m.getLsbD 7 else m.getLsbD k := by
  simp only [mstatusOnReturn, getLsbD_setBit, bitMie, bitMpie]
  split_ifs <;> simp_all

/-- SPP is the single bit 8 (R39, C5). -/
theorem sppOf_eq (s : Word) : sppOf s = if s.getLsbD 8 then 1 else 0 := by
  rw [sppOf, bitSpp, BitVec.extractLsb'_toNat, Nat.shiftRight_eq_div_pow, BitVec.getLsbD, Nat.testBit_eq_decide_div_mod_eq]
  simp only [decide_eq_true_eq]
  split <;> omega

/-- MPP is the number of bits 12:11 (R40). -/
theorem mppOf_eq (m : Word) :
    mppOf m = (if m.getLsbD 11 then 1 else 0) + (if m.getLsbD 12 then 2 else 0) := by
  rw [mppOf, bitMpp, BitVec.extractLsb'_toNat, Nat.shiftRight_eq_div_pow, BitVec.getLsbD, BitVec.getLsbD,
    Nat.testBit_eq_decide_div_mod_eq, Nat.testBit_eq_decide_div_mod_eq]
  simp only [decide_eq_true_eq]
  split <;> split <;> omega

/-- A return never raises the mode (R136). -/
theorem demote_le (limit pp : Nat) (m : Mode) (hl : limit ≤ m.num) : (demote limit pp m).num ≤ m.num := by
  rw [demote]
  split
  · split_ifs
    · exact Nat.zero_le _
    · change 1 ≤ m.num; omega
    · exact Nat.le_refl _
  · exact Nat.le_refl _

theorem Mode.num_injective {m n : Mode} (h : m.num = n.num) : m = n := by
  cases m <;> cases n <;> first | rfl | cases h

theorem Mode.num_le_two (m : Mode) : m.num ≤ 2 := by cases m <;> decide

end Sys2Proof.Machine
end

