-- ==== Sys2Proof/Laws/Operands.lean ====
section
/-! SUPPORT. What reads of operands see after writes (spec 10_state.md R28, R29, R37, R38; 40_register_file.md R101). -/

namespace Sys2Proof.Machine

@[simp] theorem readX_zero (s : State) : s.readX 0#5 = 0 := rfl

/-- A read after a write, `x[0]` included (R29). -/
theorem readX_writeX (s : State) (i : RegIdx) (v : Word) (j : RegIdx) :
    (s.writeX i v).readX j = if j = i ∧ i ≠ 0#5 then v else s.readX j := by
  by_cases hi : i = 0#5
  · simp [State.writeX, hi]
  · by_cases hj : j = 0#5
    · simp [State.readX, hj, Ne.symm hi]
    · have : j = i ↔ i.toNat = j.toNat := by rw [BitVec.toNat_eq]; exact eq_comm
      simp only [State.readX, State.writeX, if_neg hi, if_neg hj, Vector.getElem_set, this]
      simp [hi]

@[simp] theorem VRegFile.get_set_self (f : VRegFile) (r : Csr) (v : Word) : (f.set r v).get r = v := by
  cases r <;> rfl

/-- No aliasing: a write to one register leaves every other as it was (R38). -/
theorem VRegFile.get_set_other (f : VRegFile) {r q : Csr} (h : q ≠ r) (v : Word) : (f.set r v).get q = f.get q := by
  cases r <;> cases q <;> first | rfl | exact absurd rfl h

theorem VRegFile.get_set (f : VRegFile) (r q : Csr) (v : Word) :
    (f.set r v).get q = if q = r then v else f.get q := by
  split
  · next h => subst h; exact VRegFile.get_set_self ..
  · next h => exact VRegFile.get_set_other f h v

/-- Two files that agree on every name are equal. -/
theorem VRegFile.ext_get {f g : VRegFile} (h : ∀ r, f.get r = g.get r) : f = g := by
  cases f; cases g
  simp only [VRegFile.mk.injEq]
  exact ⟨h .sstatus, h .sedeleg, h .sideleg, h .sie, h .stvec, h .scounteren, h .sscratch, h .sepc, h .scause,
    h .stval, h .sip, h .mvendorid, h .marchid, h .mimpid, h .mhartid, h .mstatus, h .misa, h .medeleg,
    h .mideleg, h .mie, h .mtvec, h .mcounteren, h .mscratch, h .mepc, h .mcause, h .mtval, h .mip, h .pmpcfg0,
    h .pmpaddr0, h .pmpaddr1, h .pmpaddr2, h .pmpaddr3⟩

theorem mem_csrTable (r : Csr) : r ∈ csrTable := by cases r <;> decide

/-- The codes are pairwise distinct (R101). -/
theorem Csr.code_injective {r q : Csr} (h : r.code = q.code) : r = q := by
  cases r <;> cases q <;> first | rfl | exact absurd h (by decide)

/-- Every register is found under its own code (R101). -/
@[simp] theorem lookupCsr_code (r : Csr) : lookupCsr r.code = some r := by cases r <;> decide

/-- A lookup answers the register with that code, and nothing else (R101). -/
theorem lookupCsr_eq_some_iff (id : CsrId) (r : Csr) : lookupCsr id = some r ↔ r.code = id := by
  constructor
  · intro h
    have := List.find?_some h
    simpa using this
  · rintro rfl
    exact lookupCsr_code r

theorem lookupCsr_eq_none_iff (id : CsrId) : lookupCsr id = none ↔ ∀ r : Csr, r.code ≠ id := by
  rw [Option.eq_none_iff_forall_ne_some]
  exact forall_congr' fun r => not_congr (lookupCsr_eq_some_iff id r)

/-- What `CsrCheck` can answer (R140). -/
theorem csrCheck_cases (s : State) (id : CsrId) :
    (lookupCsr id = none ∧ csrCheck s id = .error (.violation .unknownRegister)) ∨
    (∃ r, lookupCsr id = some r ∧ s.mode.num < r.minMode.num ∧
      csrCheck s id = .error (.violation .insufficientPrivilege)) ∨
    (∃ r, lookupCsr id = some r ∧ r.minMode.num ≤ s.mode.num ∧ csrCheck s id = .ok r) := by
  rw [csrCheck]
  cases h : lookupCsr id with
  | none => exact .inl ⟨rfl, rfl⟩
  | some r =>
    by_cases hm : s.mode.num < r.minMode.num
    · exact .inr (.inl ⟨r, rfl, hm, if_pos hm⟩)
    · exact .inr (.inr ⟨r, rfl, Nat.le_of_not_lt hm, if_neg hm⟩)

/-- Every register needs at least Supervisor (R140). -/
theorem Csr.one_le_minMode (r : Csr) : 1 ≤ r.minMode.num := by cases r <;> decide

end Sys2Proof.Machine
end

