-- ==== Sys2Proof/Laws/PageTable.lean ====
section
/-! SUPPORT. What the region operations and the two constructions do to every page, and that they keep tables canonical
(spec 20_memory.md R63; 44_shadow_pmp.md R150 to R157). -/

namespace Sys2Proof.Machine

/-! ### Page ranges -/

/-- A page is in the range exactly when the range is not empty and the page overlaps it. -/
theorem inPageRange_iff (start stop vpn : Nat) :
    inPageRange start stop vpn = true ↔
      start < stop ∧ start < (vpn + 1) * pageSize ∧ vpn * pageSize < stop := by
  rw [inPageRange, Bool.and_eq_true, decide_eq_true_iff, decide_eq_true_iff, pageCount]
  simp only [firstPage, pageSize]
  split <;> omega

theorem mem_pageRange (start stop vpn : Nat) :
    vpn ∈ pageRange start stop ↔ inPageRange start stop vpn = true := by
  simp [pageRange, inPageRange, List.mem_range'_1]

/-! ### Entries (R62) -/

theorem Pte.toNat_pa (e : Pte) : e.pa.toNat = e.frame.toNat * pageSize := by
  have := e.frame.isLt
  rw [Pte.pa, BitVec.toNat_ofNat, Nat.mod_eq_of_lt]
  rw [pageSize]
  omega

/-- Every entry's base is a multiple of the page size. -/
theorem Pte.pa_aligned (e : Pte) : e.pa.toNat % pageSize = 0 := by
  rw [e.toNat_pa, Nat.mul_mod_left]

/-- The base and the flags are the whole entry. -/
theorem Pte.eq_of_pa_flags {e f : Pte} (hp : e.pa = f.pa) (hf : e.flags = f.flags) : e = f := by
  have h := congrArg BitVec.toNat hp
  rw [e.toNat_pa, f.toNat_pa] at h
  have hn := BitVec.eq_of_toNat_eq (Nat.eq_of_mul_eq_mul_right (by decide : 0 < pageSize) h)
  cases e; cases f; simp_all

/-- Base plus offset, and the bytes of an aligned word from there on, never pass the top of the address space. -/
theorem Pte.toNat_pa_add (e : Pte) (va : Word) {k : Nat} (hk : va.toNat % pageSize + k < pageSize) :
    (e.pa + offOf va + BitVec.ofNat 64 k).toNat = e.pa.toNat + va.toNat % pageSize + k := by
  have hf := e.frame.isLt
  have hp := e.toNat_pa
  simp only [offOf, BitVec.toNat_add, BitVec.toNat_ofNat]
  simp only [pageSize] at *
  omega

/-! ### Canonical tables -/

theorem Table.wf_iff (t : Table) : t.wf = true ↔ Assoc.rising t = true ∧ ∀ c ∈ t, c.1 < 2 ^ 52 := by
  simp [Table.wf]

theorem Table.find_eq_some_iff {t : Table} (ht : t.wf = true) (v : Nat) (e : Pte) :
    t.find v = some e ↔ (v, e) ∈ t :=
  Assoc.find_eq_some_iff ((Table.wf_iff t).1 ht).1 v e

theorem Table.find_put {t : Table} (ht : t.wf = true) (v : Nat) (e : Pte) (v' : Nat) :
    (t.put v e).find v' = if v = v' then some e else t.find v' :=
  Assoc.find_put t ((Table.wf_iff t).1 ht).1 v e v'

theorem Table.find_drop (t : Table) (v v' : Nat) :
    (t.drop v).find v' = if v = v' then none else t.find v' :=
  Assoc.find_drop t v v'

theorem Table.wf_put {t : Table} (ht : t.wf = true) {v : Nat} (hv : v < 2 ^ 52) (e : Pte) :
    (t.put v e).wf = true := by
  rw [Table.wf_iff] at *
  refine ⟨Assoc.rising_put ht.1 v e, fun c hc => ?_⟩
  rcases Assoc.mem_put hc with rfl | hc
  · exact hv
  · exact ht.2 c hc

theorem Table.wf_filter {t : Table} (ht : t.wf = true) (p : Nat × Pte → Bool) :
    Table.wf (t.filter p) = true := by
  rw [Table.wf_iff] at *
  exact ⟨Assoc.rising_filter ht.1 p, fun c hc => ht.2 c (List.mem_filter.1 hc).1⟩

theorem Table.wf_drop {t : Table} (ht : t.wf = true) (v : Nat) : (t.drop v).wf = true :=
  Table.wf_filter ht _

/-! ### One walk up a table -/

/-- What `copyPages` copies is listed in the source. -/
theorem Table.copyPages_mem {src : Table} {n v : Nat} {c : Table} (h : src.copyPages n v = some c) :
    ∀ d ∈ c, d ∈ src := by
  induction src generalizing n v c with
  | nil => cases n <;> simp_all [Table.copyPages]
  | cons a t ih =>
    obtain ⟨k, e⟩ := a
    cases n with
    | zero => simp_all [Table.copyPages]
    | succ n =>
      rw [Table.copyPages] at h
      split at h
      · exact fun d hd => List.mem_cons_of_mem _ (ih h d hd)
      · split at h
        · obtain ⟨c', hc', rfl⟩ := Option.map_eq_some_iff.1 h
          intro d hd
          rcases List.mem_cons.1 hd with rfl | hd
          · exact List.mem_cons_self ..
          · exact List.mem_cons_of_mem _ (ih hc' d hd)
        · cases h

/-- The pages `copyPages` copies are the `n` pages from `v` on, in order. -/
theorem Table.copyPages_keys {src : Table} {n v : Nat} {c : Table} (h : src.copyPages n v = some c) :
    c.map Prod.fst = List.range' v n := by
  induction src generalizing n v c with
  | nil => cases n <;> simp_all [Table.copyPages]
  | cons a t ih =>
    obtain ⟨k, e⟩ := a
    cases n with
    | zero => simp_all [Table.copyPages]
    | succ n =>
      rw [Table.copyPages] at h
      split at h
      · exact ih h
      · split at h
        · next hk =>
          subst hk
          obtain ⟨c', hc', rfl⟩ := Option.map_eq_some_iff.1 h
          rw [List.map_cons, ih hc', List.range'_succ]
        · cases h

theorem Table.copyPages_rising {src : Table} {n v : Nat} {c : Table} (h : src.copyPages n v = some c) :
    Assoc.rising c = true := by
  rw [Assoc.rising_iff_pairwise, ← List.pairwise_map (f := Prod.fst) (R := fun a b : Nat => a < b),
    Table.copyPages_keys h]
  exact List.pairwise_lt_range'

/-- On a canonical source `copyPages` answers exactly when every one of the pages is mapped. -/
theorem Table.copyPages_isSome {src : Table} (hs : Assoc.rising src = true) (n v : Nat) :
    (src.copyPages n v).isSome = true ↔ ∀ k, v ≤ k → k < v + n → Assoc.find src k ≠ none := by
  induction src generalizing n v with
  | nil =>
    cases n with
    | zero =>
      simp only [Table.copyPages, Option.isSome_some, true_iff]
      exact fun k h h' => absurd h' (by omega)
    | succ n => simpa [Table.copyPages] using ⟨v, Nat.le_refl v, by omega⟩
  | cons a t ih =>
    obtain ⟨k, e⟩ := a
    rw [Assoc.rising_cons] at hs
    cases n with
    | zero =>
      simp only [Table.copyPages, Option.isSome_some, true_iff]
      exact fun k h h' => absurd h' (by omega)
    | succ n =>
      rw [Table.copyPages]
      split
      · next hk =>
        rw [ih hs.2]
        refine forall_congr' fun j => imp_congr_right fun hj => ?_
        rw [Assoc.find_cons, if_neg (by omega)]
      · split
        · next hk =>
          subst hk
          rw [Option.isSome_map, ih hs.2]
          constructor
          · intro h j hj hj'
            rw [Assoc.find_cons]
            split
            · simp
            · exact h j (by omega) (by omega)
          · intro h j hj hj'
            have := h j (by omega) (by omega)
            rwa [Assoc.find_cons, if_neg (by omega)] at this
        · next hlt hne =>
          simp only [Option.isSome_none, Bool.false_eq_true, false_iff]
          intro h
          apply h v (Nat.le_refl v) (by omega)
          rw [Assoc.find_eq_none_iff]
          intro c hc
          rcases List.mem_cons.1 hc with rfl | hc
          · exact hne
          · have := hs.1 c hc
            simp only at this
            omega

/-- What `copyPages` maps: the source's entries on the `n` pages from `v` on, nothing elsewhere. -/
theorem Table.find_copyPages {src : Table} (hs : Assoc.rising src = true) {n v : Nat} {c : Table}
    (h : src.copyPages n v = some c) (k : Nat) :
    Assoc.find c k = if v ≤ k ∧ k < v + n then Assoc.find src k else none := by
  have hk : (∃ e, (k, e) ∈ c) ↔ v ≤ k ∧ k < v + n := by
    rw [← List.mem_range'_1, ← Table.copyPages_keys h, List.mem_map]
    exact ⟨fun ⟨e, he⟩ => ⟨_, he, rfl⟩, fun ⟨d, hd, hdk⟩ => ⟨d.2, by rw [← hdk]; exact hd⟩⟩
  split
  · next hr =>
    obtain ⟨e, he⟩ := hk.2 hr
    rw [(Assoc.find_eq_some_iff (Table.copyPages_rising h) k e).2 he]
    exact ((Assoc.find_eq_some_iff hs k e).2 (Table.copyPages_mem h _ he)).symm
  · next hr =>
    rw [Assoc.find_eq_none_iff]
    rintro ⟨k', e⟩ he rfl
    exact hr (hk.1 ⟨e, he⟩)

/-! ### The region operations -/

/-- `duplicate_region` answers exactly when every page of the range is mapped in the source (R151). -/
theorem Table.duplicateRegion_isSome {src : Table} (hs : src.wf = true) (dst : Table) (start stop : Nat) :
    (src.duplicateRegion dst start stop).isSome = true ↔
      ∀ v, inPageRange start stop v = true → src.find v ≠ none := by
  rw [Table.duplicateRegion, Option.isSome_map, Table.copyPages_isSome ((Table.wf_iff _).1 hs).1]
  simp only [inPageRange, Bool.and_eq_true, decide_eq_true_eq, and_imp, Table.find]

/-- What `duplicate_region` leaves: the source's entries on the range, the destination's elsewhere (R151). -/
theorem Table.find_duplicateRegion {src dst t : Table} (hs : src.wf = true) {start stop : Nat}
    (h : src.duplicateRegion dst start stop = some t) (v : Nat) :
    t.find v = if inPageRange start stop v = true then src.find v else dst.find v := by
  obtain ⟨c, hc, rfl⟩ := Option.map_eq_some_iff.1 h
  simp only [Table.find, Assoc.find_append, Table.find_copyPages ((Table.wf_iff _).1 hs).1 hc,
    Assoc.find_filter dst (fun k => decide (k < firstPage start)),
    Assoc.find_filter dst (fun k => decide (firstPage start + pageCount start stop ≤ k)),
    inPageRange, Bool.and_eq_true, decide_eq_true_eq]
  by_cases h1 : v < firstPage start
  · have h2 : ¬ firstPage start ≤ v := by omega
    have h3 : ¬ firstPage start + pageCount start stop ≤ v := by omega
    simp [h1, h2, h3]
  · by_cases h3 : firstPage start + pageCount start stop ≤ v
    · have h2 : ¬ v < firstPage start + pageCount start stop := by omega
      simp [h1, h2, h3]
    · have h2 : v < firstPage start + pageCount start stop := by omega
      have h4 : firstPage start ≤ v := by omega
      simp [h1, h2, h3, h4]

theorem Table.wf_duplicateRegion {src dst t : Table} (hs : src.wf = true) (hd : dst.wf = true) {start stop : Nat}
    (h : src.duplicateRegion dst start stop = some t) : t.wf = true := by
  obtain ⟨c, hc, rfl⟩ := Option.map_eq_some_iff.1 h
  have hk : ∀ d ∈ c, firstPage start ≤ d.1 ∧ d.1 < firstPage start + pageCount start stop := by
    intro d hd
    rw [← List.mem_range'_1, ← Table.copyPages_keys hc]
    exact List.mem_map_of_mem hd
  rw [Table.wf_iff] at *
  refine ⟨Assoc.rising_append (Assoc.rising_append (Assoc.rising_filter hd.1 _) (Table.copyPages_rising hc) ?_)
    (Assoc.rising_filter hd.1 _) ?_, ?_⟩
  · intro a ha b hb
    have := (hk b hb).1
    have := (List.mem_filter.1 ha).2
    simp only [decide_eq_true_eq] at this
    omega
  · intro a ha b hb
    have hb := (List.mem_filter.1 hb).2
    simp only [decide_eq_true_eq] at hb
    rcases List.mem_append.1 ha with ha | ha
    · have := (List.mem_filter.1 ha).2
      simp only [decide_eq_true_eq] at this
      omega
    · have := hk a ha
      omega
  · intro d hd'
    rcases List.mem_append.1 hd' with hd' | hd'
    · rcases List.mem_append.1 hd' with hd' | hd'
      · exact hd.2 d (List.mem_filter.1 hd').1
      · exact hs.2 d (Table.copyPages_mem hc d hd')
    · exact hd.2 d (List.mem_filter.1 hd').1

/-- What `restrict_region` leaves: nothing on the range, everything else (R152). -/
theorem Table.find_restrictRegion (t : Table) (start stop v : Nat) :
    (t.restrictRegion start stop).find v = if inPageRange start stop v = true then none else t.find v := by
  rw [Table.restrictRegion, Table.find, Assoc.find_filter t (fun k => !inPageRange start stop k)]
  by_cases h : inPageRange start stop v = true <;> simp [h, Table.find]

theorem Table.wf_restrictRegion {t : Table} (ht : t.wf = true) (start stop : Nat) :
    (t.restrictRegion start stop).wf = true :=
  Table.wf_filter ht _

/-! ### The two constructions -/

/-- Whether a page lies in one of the two duplicated ranges (R153). -/
abbrev inBothRanges (guestSize : Word) (v : Nat) : Prop :=
  inPageRange 0 guestSize.toNat v = true ∨ inPageRange kwinBase kwinEnd v = true

/-- Duplicating the two ranges succeeds exactly when every page of both is mapped in the source (R153). -/
theorem Table.duplicateBoth_isSome {src : Table} (hs : src.wf = true) (g : Word) :
    (src.duplicateBoth g).isSome = true ↔ ∀ v, inBothRanges g v → src.find v ≠ none := by
  rw [Table.duplicateBoth]
  split
  · next h =>
    have hn := Table.duplicateRegion_isSome hs [] 0 g.toNat
    rw [h] at hn
    simp only [Option.isSome_none, Bool.false_eq_true, false_iff] at hn ⊢
    exact fun hv => hn fun v h1 => hv v (.inl h1)
  · next t h =>
    have hn := Table.duplicateRegion_isSome hs [] 0 g.toNat
    rw [h] at hn
    simp only [Option.isSome_some, true_iff] at hn
    rw [Table.duplicateRegion_isSome hs]
    exact ⟨fun hv v h1 => h1.elim (hn v) (hv v), fun hv v h1 => hv v (.inr h1)⟩

/-- What duplicating the two ranges maps: the source's entries on both, nothing elsewhere (R153). -/
theorem Table.find_duplicateBoth {src t : Table} (hs : src.wf = true) {g : Word}
    (h : src.duplicateBoth g = some t) (v : Nat) :
    t.find v = if inBothRanges g v then src.find v else none := by
  rw [Table.duplicateBoth] at h
  split at h
  · cases h
  · next u hu =>
    rw [Table.find_duplicateRegion hs h, Table.find_duplicateRegion hs hu]
    by_cases h1 : inPageRange 0 g.toNat v = true <;> by_cases h2 : inPageRange kwinBase kwinEnd v = true <;>
      simp [inBothRanges, h1, h2, Table.find]

theorem Table.wf_duplicateBoth {src t : Table} (hs : src.wf = true) {g : Word}
    (h : src.duplicateBoth g = some t) : t.wf = true := by
  rw [Table.duplicateBoth] at h
  split at h
  · cases h
  · next u hu => exact Table.wf_duplicateRegion hs (Table.wf_duplicateRegion hs rfl hu) h

/-- Whether a region prunes a page: the page is in its range and it lacks some access (R156). -/
abbrev PmpRegion.prunes (r : PmpRegion) (v : Nat) : Prop :=
  r.allAccess = false ∧ inPageRange r.start.toNat r.stop.toNat v = true

theorem Table.find_applyRegion (t : Table) (r : PmpRegion) (v : Nat) :
    (t.applyRegion r).find v = if r.prunes v then none else t.find v := by
  rw [Table.applyRegion]
  by_cases h : r.allAccess = true
  · simp [h, PmpRegion.prunes]
  · rw [if_neg h, Table.find_restrictRegion]
    simp [PmpRegion.prunes, h]

theorem Table.wf_applyRegion {t : Table} (ht : t.wf = true) (r : PmpRegion) : (t.applyRegion r).wf = true := by
  rw [Table.applyRegion]
  split
  · exact ht
  · exact Table.wf_restrictRegion ht _ _

/-- What the filter loop leaves: nothing on a page some region prunes, everything else (R157). -/
theorem Table.find_foldl_applyRegion (rs : List PmpRegion) (t : Table) (v : Nat) :
    (rs.foldl Table.applyRegion t).find v = if ∃ r ∈ rs, r.prunes v then none else t.find v := by
  induction rs generalizing t with
  | nil => simp
  | cons r rs ih =>
    rw [List.foldl_cons, ih, Table.find_applyRegion]
    by_cases h1 : r.prunes v <;> by_cases h2 : ∃ q ∈ rs, q.prunes v <;> simp [h1, h2]

theorem Table.wf_foldl_applyRegion (rs : List PmpRegion) {t : Table} (ht : t.wf = true) :
    (rs.foldl Table.applyRegion t).wf = true := by
  induction rs generalizing t with
  | nil => exact ht
  | cons r rs ih => exact ih (Table.wf_applyRegion ht r)

/-- `BuildRestricted` succeeds exactly when both ranges are mapped in the shadow (R157). -/
theorem buildRestricted_isSome {sh : Table} (hs : sh.wf = true) (g : Word) (rs : List PmpRegion) :
    (buildRestricted sh g rs).isSome = true ↔ ∀ v, inBothRanges g v → sh.find v ≠ none := by
  rw [buildRestricted, Option.isSome_map, Table.duplicateBoth_isSome hs]

/-- What the restricted table maps (R157). -/
theorem find_buildRestricted {sh t : Table} (hs : sh.wf = true) {g : Word} {rs : List PmpRegion}
    (h : buildRestricted sh g rs = some t) (v : Nat) :
    t.find v = if ∃ r ∈ rs, r.prunes v then none else if inBothRanges g v then sh.find v else none := by
  obtain ⟨u, hu, rfl⟩ := Option.map_eq_some_iff.1 h
  rw [Table.find_foldl_applyRegion, Table.find_duplicateBoth hs hu]

theorem wf_buildRestricted {sh t : Table} (hs : sh.wf = true) {g : Word} {rs : List PmpRegion}
    (h : buildRestricted sh g rs = some t) : t.wf = true := by
  obtain ⟨u, hu, rfl⟩ := Option.map_eq_some_iff.1 h
  exact Table.wf_foldl_applyRegion rs (Table.wf_duplicateBoth hs hu)

end Sys2Proof.Machine
end

