-- ==== Sys2Proof/Laws/State.lean ====
section
/-! SUPPORT. What every update of the state does to every field, each true by definition. -/

namespace Sys2Proof.Machine

/-! ### install -/

@[simp] theorem install_vregs (sel : LiveSel) (s : State) : (install sel s).vregs = s.vregs := rfl

@[simp] theorem install_mode (sel : LiveSel) (s : State) : (install sel s).mode = s.mode := rfl

@[simp] theorem install_pmpConfiguration (sel : LiveSel) (s : State) : (install sel s).pmpConfiguration = s.pmpConfiguration := rfl

@[simp] theorem install_shadowTable (sel : LiveSel) (s : State) : (install sel s).shadowTable = s.shadowTable := rfl

@[simp] theorem install_restrictedTable (sel : LiveSel) (s : State) : (install sel s).restrictedTable = s.restrictedTable := rfl

@[simp] theorem install_x (sel : LiveSel) (s : State) : (install sel s).x = s.x := rfl

@[simp] theorem install_pc (sel : LiveSel) (s : State) : (install sel s).pc = s.pc := rfl

@[simp] theorem install_liveSel (sel : LiveSel) (s : State) : (install sel s).liveSel = sel := rfl

@[simp] theorem install_origTable (sel : LiveSel) (s : State) : (install sel s).origTable = s.origTable := rfl

@[simp] theorem install_guestSize (sel : LiveSel) (s : State) : (install sel s).guestSize = s.guestSize := rfl

@[simp] theorem install_killed (sel : LiveSel) (s : State) : (install sel s).killed = s.killed := rfl

@[simp] theorem install_faulted (sel : LiveSel) (s : State) : (install sel s).faulted = s.faulted := rfl

@[simp] theorem install_mem (sel : LiveSel) (s : State) : (install sel s).mem = s.mem := rfl

@[simp] theorem install_tlbFlushes (sel : LiveSel) (s : State) : (install sel s).tlbFlushes = s.tlbFlushes + 1 := rfl

@[simp] theorem install_freeDraws (sel : LiveSel) (s : State) : (install sel s).freeDraws = s.freeDraws := rfl

@[simp] theorem install_inputs (sel : LiveSel) (s : State) : (install sel s).inputs = s.inputs := rfl

/-! ### advancePc -/

@[simp] theorem advancePc_vregs (s : State) : (advancePc s).vregs = s.vregs := rfl

@[simp] theorem advancePc_mode (s : State) : (advancePc s).mode = s.mode := rfl

@[simp] theorem advancePc_pmpConfiguration (s : State) : (advancePc s).pmpConfiguration = s.pmpConfiguration := rfl

@[simp] theorem advancePc_shadowTable (s : State) : (advancePc s).shadowTable = s.shadowTable := rfl

@[simp] theorem advancePc_restrictedTable (s : State) : (advancePc s).restrictedTable = s.restrictedTable := rfl

@[simp] theorem advancePc_x (s : State) : (advancePc s).x = s.x := rfl

@[simp] theorem advancePc_pc (s : State) : (advancePc s).pc = s.pc + 4#64 := rfl

@[simp] theorem advancePc_liveSel (s : State) : (advancePc s).liveSel = s.liveSel := rfl

@[simp] theorem advancePc_origTable (s : State) : (advancePc s).origTable = s.origTable := rfl

@[simp] theorem advancePc_guestSize (s : State) : (advancePc s).guestSize = s.guestSize := rfl

@[simp] theorem advancePc_killed (s : State) : (advancePc s).killed = s.killed := rfl

@[simp] theorem advancePc_faulted (s : State) : (advancePc s).faulted = s.faulted := rfl

@[simp] theorem advancePc_mem (s : State) : (advancePc s).mem = s.mem := rfl

@[simp] theorem advancePc_tlbFlushes (s : State) : (advancePc s).tlbFlushes = s.tlbFlushes := rfl

@[simp] theorem advancePc_freeDraws (s : State) : (advancePc s).freeDraws = s.freeDraws := rfl

@[simp] theorem advancePc_inputs (s : State) : (advancePc s).inputs = s.inputs := rfl

/-! ### writeVReg -/

@[simp] theorem writeVReg_vregs (s : State) (r : Csr) (v : Word) : (s.writeVReg r v).vregs = s.vregs.set r v := rfl

@[simp] theorem writeVReg_mode (s : State) (r : Csr) (v : Word) : (s.writeVReg r v).mode = s.mode := rfl

@[simp] theorem writeVReg_pmpConfiguration (s : State) (r : Csr) (v : Word) : (s.writeVReg r v).pmpConfiguration = s.pmpConfiguration := rfl

@[simp] theorem writeVReg_shadowTable (s : State) (r : Csr) (v : Word) : (s.writeVReg r v).shadowTable = s.shadowTable := rfl

@[simp] theorem writeVReg_restrictedTable (s : State) (r : Csr) (v : Word) : (s.writeVReg r v).restrictedTable = s.restrictedTable := rfl

@[simp] theorem writeVReg_x (s : State) (r : Csr) (v : Word) : (s.writeVReg r v).x = s.x := rfl

@[simp] theorem writeVReg_pc (s : State) (r : Csr) (v : Word) : (s.writeVReg r v).pc = s.pc := rfl

@[simp] theorem writeVReg_liveSel (s : State) (r : Csr) (v : Word) : (s.writeVReg r v).liveSel = s.liveSel := rfl

@[simp] theorem writeVReg_origTable (s : State) (r : Csr) (v : Word) : (s.writeVReg r v).origTable = s.origTable := rfl

@[simp] theorem writeVReg_guestSize (s : State) (r : Csr) (v : Word) : (s.writeVReg r v).guestSize = s.guestSize := rfl

@[simp] theorem writeVReg_killed (s : State) (r : Csr) (v : Word) : (s.writeVReg r v).killed = s.killed := rfl

@[simp] theorem writeVReg_faulted (s : State) (r : Csr) (v : Word) : (s.writeVReg r v).faulted = s.faulted := rfl

@[simp] theorem writeVReg_mem (s : State) (r : Csr) (v : Word) : (s.writeVReg r v).mem = s.mem := rfl

@[simp] theorem writeVReg_tlbFlushes (s : State) (r : Csr) (v : Word) : (s.writeVReg r v).tlbFlushes = s.tlbFlushes := rfl

@[simp] theorem writeVReg_freeDraws (s : State) (r : Csr) (v : Word) : (s.writeVReg r v).freeDraws = s.freeDraws := rfl

@[simp] theorem writeVReg_inputs (s : State) (r : Csr) (v : Word) : (s.writeVReg r v).inputs = s.inputs := rfl

/-! ### initContext -/

@[simp] theorem initContext_vregs (s : State) : (initContext s).vregs = VRegFile.reset := rfl

@[simp] theorem initContext_mode (s : State) : (initContext s).mode = .machine := rfl

@[simp] theorem initContext_pmpConfiguration (s : State) : (initContext s).pmpConfiguration = false := rfl

@[simp] theorem initContext_shadowTable (s : State) : (initContext s).shadowTable = none := rfl

@[simp] theorem initContext_restrictedTable (s : State) : (initContext s).restrictedTable = none := rfl

@[simp] theorem initContext_x (s : State) : (initContext s).x = s.x := rfl

@[simp] theorem initContext_pc (s : State) : (initContext s).pc = s.pc := rfl

@[simp] theorem initContext_liveSel (s : State) : (initContext s).liveSel = .original := rfl

@[simp] theorem initContext_origTable (s : State) : (initContext s).origTable = s.origTable := rfl

@[simp] theorem initContext_guestSize (s : State) : (initContext s).guestSize = s.guestSize := rfl

@[simp] theorem initContext_killed (s : State) : (initContext s).killed = s.killed := rfl

@[simp] theorem initContext_faulted (s : State) : (initContext s).faulted = s.faulted := rfl

@[simp] theorem initContext_mem (s : State) : (initContext s).mem = s.mem := rfl

@[simp] theorem initContext_tlbFlushes (s : State) : (initContext s).tlbFlushes = s.tlbFlushes + 1 := rfl

@[simp] theorem initContext_freeDraws (s : State) : (initContext s).freeDraws = s.freeDraws := rfl

@[simp] theorem initContext_inputs (s : State) : (initContext s).inputs = s.inputs := rfl

/-! ### hardwareReset -/

@[simp] theorem hardwareReset_vregs (s : State) : (hardwareReset s).vregs = VRegFile.reset := rfl

@[simp] theorem hardwareReset_mode (s : State) : (hardwareReset s).mode = .machine := rfl

@[simp] theorem hardwareReset_pmpConfiguration (s : State) : (hardwareReset s).pmpConfiguration = false := rfl

@[simp] theorem hardwareReset_shadowTable (s : State) : (hardwareReset s).shadowTable = none := rfl

@[simp] theorem hardwareReset_restrictedTable (s : State) : (hardwareReset s).restrictedTable = none := rfl

@[simp] theorem hardwareReset_x (s : State) : (hardwareReset s).x = s.x := rfl

@[simp] theorem hardwareReset_pc (s : State) : (hardwareReset s).pc = s.pc := rfl

@[simp] theorem hardwareReset_liveSel (s : State) : (hardwareReset s).liveSel = .original := rfl

@[simp] theorem hardwareReset_origTable (s : State) : (hardwareReset s).origTable = s.origTable := rfl

@[simp] theorem hardwareReset_guestSize (s : State) : (hardwareReset s).guestSize = s.guestSize := rfl

@[simp] theorem hardwareReset_killed (s : State) : (hardwareReset s).killed = s.killed := rfl

@[simp] theorem hardwareReset_faulted (s : State) : (hardwareReset s).faulted = false := rfl

@[simp] theorem hardwareReset_mem (s : State) : (hardwareReset s).mem = s.mem := rfl

@[simp] theorem hardwareReset_tlbFlushes (s : State) : (hardwareReset s).tlbFlushes = s.tlbFlushes + 1 := rfl

@[simp] theorem hardwareReset_freeDraws (s : State) : (hardwareReset s).freeDraws = s.freeDraws := rfl

@[simp] theorem hardwareReset_inputs (s : State) : (hardwareReset s).inputs = s.inputs := rfl

/-! ### violationSequence -/

@[simp] theorem violationSequence_vregs (v : Violation) (s : State) : (violationSequence v s).vregs = VRegFile.reset := rfl

@[simp] theorem violationSequence_mode (v : Violation) (s : State) : (violationSequence v s).mode = .machine := rfl

@[simp] theorem violationSequence_pmpConfiguration (v : Violation) (s : State) : (violationSequence v s).pmpConfiguration = false := rfl

@[simp] theorem violationSequence_shadowTable (v : Violation) (s : State) : (violationSequence v s).shadowTable = none := rfl

@[simp] theorem violationSequence_restrictedTable (v : Violation) (s : State) : (violationSequence v s).restrictedTable = none := rfl

@[simp] theorem violationSequence_x (v : Violation) (s : State) : (violationSequence v s).x = s.x := rfl

@[simp] theorem violationSequence_pc (v : Violation) (s : State) : (violationSequence v s).pc = s.pc := rfl

@[simp] theorem violationSequence_liveSel (v : Violation) (s : State) : (violationSequence v s).liveSel = .original := rfl

@[simp] theorem violationSequence_origTable (v : Violation) (s : State) : (violationSequence v s).origTable = s.origTable := rfl

@[simp] theorem violationSequence_guestSize (v : Violation) (s : State) : (violationSequence v s).guestSize = s.guestSize := rfl

@[simp] theorem violationSequence_killed (v : Violation) (s : State) : (violationSequence v s).killed = true := rfl

@[simp] theorem violationSequence_faulted (v : Violation) (s : State) : (violationSequence v s).faulted = s.faulted := rfl

@[simp] theorem violationSequence_mem (v : Violation) (s : State) : (violationSequence v s).mem = s.mem := rfl

@[simp] theorem violationSequence_tlbFlushes (v : Violation) (s : State) : (violationSequence v s).tlbFlushes = s.tlbFlushes + 1 := rfl

@[simp] theorem violationSequence_freeDraws (v : Violation) (s : State) : (violationSequence v s).freeDraws = s.freeDraws := rfl

@[simp] theorem violationSequence_inputs (v : Violation) (s : State) : (violationSequence v s).inputs = s.inputs := rfl

/-! ### haltSequence -/

@[simp] theorem haltSequence_vregs (r : InternalFault) (s : State) :
    (haltSequence r s).vregs = freeVRegs s.freeDraws := rfl

@[simp] theorem haltSequence_mode (r : InternalFault) (s : State) :
    (haltSequence r s).mode = freeMode (Config.haltedMode s.freeDraws) := rfl

@[simp] theorem haltSequence_pmpConfiguration (r : InternalFault) (s : State) :
    (haltSequence r s).pmpConfiguration = Config.haltedFlag s.freeDraws := rfl

@[simp] theorem haltSequence_shadowTable (r : InternalFault) (s : State) :
    (haltSequence r s).shadowTable = (Config.haltedShadow s.freeDraws).map freeTable := rfl

@[simp] theorem haltSequence_restrictedTable (r : InternalFault) (s : State) :
    (haltSequence r s).restrictedTable = (Config.haltedRestricted s.freeDraws).map freeTable := rfl

@[simp] theorem haltSequence_x (r : InternalFault) (s : State) :
    (haltSequence r s).x = s.x := rfl

@[simp] theorem haltSequence_pc (r : InternalFault) (s : State) :
    (haltSequence r s).pc = Config.haltedPc s.freeDraws := rfl

@[simp] theorem haltSequence_liveSel (r : InternalFault) (s : State) :
    (haltSequence r s).liveSel = freeLiveSel (Config.haltedLiveSel s.freeDraws) := rfl

@[simp] theorem haltSequence_origTable (r : InternalFault) (s : State) :
    (haltSequence r s).origTable = s.origTable := rfl

@[simp] theorem haltSequence_guestSize (r : InternalFault) (s : State) :
    (haltSequence r s).guestSize = s.guestSize := rfl

@[simp] theorem haltSequence_killed (r : InternalFault) (s : State) :
    (haltSequence r s).killed = s.killed := rfl

@[simp] theorem haltSequence_faulted (r : InternalFault) (s : State) :
    (haltSequence r s).faulted = true := rfl

@[simp] theorem haltSequence_mem (r : InternalFault) (s : State) :
    (haltSequence r s).mem = s.mem := rfl

@[simp] theorem haltSequence_tlbFlushes (r : InternalFault) (s : State) :
    (haltSequence r s).tlbFlushes = s.tlbFlushes := rfl

@[simp] theorem haltSequence_freeDraws (r : InternalFault) (s : State) :
    (haltSequence r s).freeDraws = s.freeDraws + 1 := rfl

@[simp] theorem haltSequence_inputs (r : InternalFault) (s : State) :
    (haltSequence r s).inputs = s.inputs := rfl

/-! ### enterSupervisor -/

@[simp] theorem enterSupervisor_vregs (s : State) : (enterSupervisor s).vregs = { s.vregs with sepc := s.pc, sstatus := sstatusOnEntry s.vregs.sstatus } := rfl

@[simp] theorem enterSupervisor_mode (s : State) : (enterSupervisor s).mode = .supervisor := rfl

@[simp] theorem enterSupervisor_pmpConfiguration (s : State) : (enterSupervisor s).pmpConfiguration = s.pmpConfiguration := rfl

@[simp] theorem enterSupervisor_shadowTable (s : State) : (enterSupervisor s).shadowTable = s.shadowTable := rfl

@[simp] theorem enterSupervisor_restrictedTable (s : State) : (enterSupervisor s).restrictedTable = s.restrictedTable := rfl

@[simp] theorem enterSupervisor_x (s : State) : (enterSupervisor s).x = s.x := rfl

@[simp] theorem enterSupervisor_pc (s : State) : (enterSupervisor s).pc = s.vregs.stvec := rfl

@[simp] theorem enterSupervisor_liveSel (s : State) : (enterSupervisor s).liveSel = s.liveSel := rfl

@[simp] theorem enterSupervisor_origTable (s : State) : (enterSupervisor s).origTable = s.origTable := rfl

@[simp] theorem enterSupervisor_guestSize (s : State) : (enterSupervisor s).guestSize = s.guestSize := rfl

@[simp] theorem enterSupervisor_killed (s : State) : (enterSupervisor s).killed = s.killed := rfl

@[simp] theorem enterSupervisor_faulted (s : State) : (enterSupervisor s).faulted = s.faulted := rfl

@[simp] theorem enterSupervisor_mem (s : State) : (enterSupervisor s).mem = s.mem := rfl

@[simp] theorem enterSupervisor_tlbFlushes (s : State) : (enterSupervisor s).tlbFlushes = s.tlbFlushes := rfl

@[simp] theorem enterSupervisor_freeDraws (s : State) : (enterSupervisor s).freeDraws = s.freeDraws := rfl

@[simp] theorem enterSupervisor_inputs (s : State) : (enterSupervisor s).inputs = s.inputs := rfl

/-! ### enterMachine -/

@[simp] theorem enterMachine_vregs (s : State) : (enterMachine s).vregs = { s.vregs with mepc := s.pc, mstatus := mstatusOnEntry s.vregs.mstatus } := rfl

@[simp] theorem enterMachine_mode (s : State) : (enterMachine s).mode = .machine := rfl

@[simp] theorem enterMachine_pmpConfiguration (s : State) : (enterMachine s).pmpConfiguration = s.pmpConfiguration := rfl

@[simp] theorem enterMachine_shadowTable (s : State) : (enterMachine s).shadowTable = s.shadowTable := rfl

@[simp] theorem enterMachine_restrictedTable (s : State) : (enterMachine s).restrictedTable = s.restrictedTable := rfl

@[simp] theorem enterMachine_x (s : State) : (enterMachine s).x = s.x := rfl

@[simp] theorem enterMachine_pc (s : State) : (enterMachine s).pc = s.vregs.mtvec := rfl

@[simp] theorem enterMachine_liveSel (s : State) : (enterMachine s).liveSel = .shadow := rfl

@[simp] theorem enterMachine_origTable (s : State) : (enterMachine s).origTable = s.origTable := rfl

@[simp] theorem enterMachine_guestSize (s : State) : (enterMachine s).guestSize = s.guestSize := rfl

@[simp] theorem enterMachine_killed (s : State) : (enterMachine s).killed = s.killed := rfl

@[simp] theorem enterMachine_faulted (s : State) : (enterMachine s).faulted = s.faulted := rfl

@[simp] theorem enterMachine_mem (s : State) : (enterMachine s).mem = s.mem := rfl

@[simp] theorem enterMachine_tlbFlushes (s : State) : (enterMachine s).tlbFlushes = s.tlbFlushes + 1 := rfl

@[simp] theorem enterMachine_freeDraws (s : State) : (enterMachine s).freeDraws = s.freeDraws := rfl

@[simp] theorem enterMachine_inputs (s : State) : (enterMachine s).inputs = s.inputs := rfl

/-! ### returnThroughSepc -/

@[simp] theorem returnThroughSepc_vregs (s : State) : (returnThroughSepc s).vregs = { s.vregs with sstatus := sstatusOnReturn s.vregs.sstatus } := rfl

@[simp] theorem returnThroughSepc_mode (s : State) : (returnThroughSepc s).mode = demote 1 (sppOf s.vregs.sstatus) s.mode := rfl

@[simp] theorem returnThroughSepc_pmpConfiguration (s : State) : (returnThroughSepc s).pmpConfiguration = s.pmpConfiguration := rfl

@[simp] theorem returnThroughSepc_shadowTable (s : State) : (returnThroughSepc s).shadowTable = s.shadowTable := rfl

@[simp] theorem returnThroughSepc_restrictedTable (s : State) : (returnThroughSepc s).restrictedTable = s.restrictedTable := rfl

@[simp] theorem returnThroughSepc_x (s : State) : (returnThroughSepc s).x = s.x := rfl

@[simp] theorem returnThroughSepc_pc (s : State) : (returnThroughSepc s).pc = s.vregs.sepc := rfl

@[simp] theorem returnThroughSepc_liveSel (s : State) : (returnThroughSepc s).liveSel = s.liveSel := rfl

@[simp] theorem returnThroughSepc_origTable (s : State) : (returnThroughSepc s).origTable = s.origTable := rfl

@[simp] theorem returnThroughSepc_guestSize (s : State) : (returnThroughSepc s).guestSize = s.guestSize := rfl

@[simp] theorem returnThroughSepc_killed (s : State) : (returnThroughSepc s).killed = s.killed := rfl

@[simp] theorem returnThroughSepc_faulted (s : State) : (returnThroughSepc s).faulted = s.faulted := rfl

@[simp] theorem returnThroughSepc_mem (s : State) : (returnThroughSepc s).mem = s.mem := rfl

@[simp] theorem returnThroughSepc_tlbFlushes (s : State) : (returnThroughSepc s).tlbFlushes = s.tlbFlushes := rfl

@[simp] theorem returnThroughSepc_freeDraws (s : State) : (returnThroughSepc s).freeDraws = s.freeDraws := rfl

@[simp] theorem returnThroughSepc_inputs (s : State) : (returnThroughSepc s).inputs = s.inputs := rfl

/-! ### returnThroughMepc -/

@[simp] theorem returnThroughMepc_vregs (s : State) : (returnThroughMepc s).vregs = { s.vregs with mstatus := mstatusOnReturn s.vregs.mstatus } := rfl

@[simp] theorem returnThroughMepc_mode (s : State) : (returnThroughMepc s).mode = demote 2 (mppOf s.vregs.mstatus) s.mode := rfl

@[simp] theorem returnThroughMepc_pmpConfiguration (s : State) : (returnThroughMepc s).pmpConfiguration = s.pmpConfiguration := rfl

@[simp] theorem returnThroughMepc_shadowTable (s : State) : (returnThroughMepc s).shadowTable = s.shadowTable := rfl

@[simp] theorem returnThroughMepc_restrictedTable (s : State) : (returnThroughMepc s).restrictedTable = s.restrictedTable := rfl

@[simp] theorem returnThroughMepc_x (s : State) : (returnThroughMepc s).x = s.x := rfl

@[simp] theorem returnThroughMepc_pc (s : State) : (returnThroughMepc s).pc = s.vregs.mepc := rfl

@[simp] theorem returnThroughMepc_liveSel (s : State) : (returnThroughMepc s).liveSel = s.liveSel := rfl

@[simp] theorem returnThroughMepc_origTable (s : State) : (returnThroughMepc s).origTable = s.origTable := rfl

@[simp] theorem returnThroughMepc_guestSize (s : State) : (returnThroughMepc s).guestSize = s.guestSize := rfl

@[simp] theorem returnThroughMepc_killed (s : State) : (returnThroughMepc s).killed = s.killed := rfl

@[simp] theorem returnThroughMepc_faulted (s : State) : (returnThroughMepc s).faulted = s.faulted := rfl

@[simp] theorem returnThroughMepc_mem (s : State) : (returnThroughMepc s).mem = s.mem := rfl

@[simp] theorem returnThroughMepc_tlbFlushes (s : State) : (returnThroughMepc s).tlbFlushes = s.tlbFlushes := rfl

@[simp] theorem returnThroughMepc_freeDraws (s : State) : (returnThroughMepc s).freeDraws = s.freeDraws := rfl

@[simp] theorem returnThroughMepc_inputs (s : State) : (returnThroughMepc s).inputs = s.inputs := rfl

/-! ### taken -/

@[simp] theorem taken_vregs (s : State) : (s.taken).vregs = s.vregs := rfl

@[simp] theorem taken_mode (s : State) : (s.taken).mode = s.mode := rfl

@[simp] theorem taken_pmpConfiguration (s : State) : (s.taken).pmpConfiguration = s.pmpConfiguration := rfl

@[simp] theorem taken_shadowTable (s : State) : (s.taken).shadowTable = s.shadowTable := rfl

@[simp] theorem taken_restrictedTable (s : State) : (s.taken).restrictedTable = s.restrictedTable := rfl

@[simp] theorem taken_x (s : State) : (s.taken).x = s.x := rfl

@[simp] theorem taken_pc (s : State) : (s.taken).pc = s.pc := rfl

@[simp] theorem taken_liveSel (s : State) : (s.taken).liveSel = s.liveSel := rfl

@[simp] theorem taken_origTable (s : State) : (s.taken).origTable = s.origTable := rfl

@[simp] theorem taken_guestSize (s : State) : (s.taken).guestSize = s.guestSize := rfl

@[simp] theorem taken_killed (s : State) : (s.taken).killed = s.killed := rfl

@[simp] theorem taken_faulted (s : State) : (s.taken).faulted = s.faulted := rfl

@[simp] theorem taken_mem (s : State) : (s.taken).mem = s.mem := rfl

@[simp] theorem taken_tlbFlushes (s : State) : (s.taken).tlbFlushes = s.tlbFlushes := rfl

@[simp] theorem taken_freeDraws (s : State) : (s.taken).freeDraws = s.freeDraws := rfl

@[simp] theorem taken_inputs (s : State) : (s.taken).inputs = s.inputs.tail := rfl

/-! ### writeX and notePmpWrite -/

@[simp] theorem writeX_vregs (s : State) (i : RegIdx) (v : Word) : (s.writeX i v).vregs = s.vregs := by
  rw [State.writeX]; split <;> rfl

@[simp] theorem writeX_mode (s : State) (i : RegIdx) (v : Word) : (s.writeX i v).mode = s.mode := by
  rw [State.writeX]; split <;> rfl

@[simp] theorem writeX_pmpConfiguration (s : State) (i : RegIdx) (v : Word) : (s.writeX i v).pmpConfiguration = s.pmpConfiguration := by
  rw [State.writeX]; split <;> rfl

@[simp] theorem writeX_shadowTable (s : State) (i : RegIdx) (v : Word) : (s.writeX i v).shadowTable = s.shadowTable := by
  rw [State.writeX]; split <;> rfl

@[simp] theorem writeX_restrictedTable (s : State) (i : RegIdx) (v : Word) : (s.writeX i v).restrictedTable = s.restrictedTable := by
  rw [State.writeX]; split <;> rfl

@[simp] theorem writeX_pc (s : State) (i : RegIdx) (v : Word) : (s.writeX i v).pc = s.pc := by
  rw [State.writeX]; split <;> rfl

@[simp] theorem writeX_liveSel (s : State) (i : RegIdx) (v : Word) : (s.writeX i v).liveSel = s.liveSel := by
  rw [State.writeX]; split <;> rfl

@[simp] theorem writeX_origTable (s : State) (i : RegIdx) (v : Word) : (s.writeX i v).origTable = s.origTable := by
  rw [State.writeX]; split <;> rfl

@[simp] theorem writeX_guestSize (s : State) (i : RegIdx) (v : Word) : (s.writeX i v).guestSize = s.guestSize := by
  rw [State.writeX]; split <;> rfl

@[simp] theorem writeX_killed (s : State) (i : RegIdx) (v : Word) : (s.writeX i v).killed = s.killed := by
  rw [State.writeX]; split <;> rfl

@[simp] theorem writeX_faulted (s : State) (i : RegIdx) (v : Word) : (s.writeX i v).faulted = s.faulted := by
  rw [State.writeX]; split <;> rfl

@[simp] theorem writeX_mem (s : State) (i : RegIdx) (v : Word) : (s.writeX i v).mem = s.mem := by
  rw [State.writeX]; split <;> rfl

@[simp] theorem writeX_tlbFlushes (s : State) (i : RegIdx) (v : Word) : (s.writeX i v).tlbFlushes = s.tlbFlushes := by
  rw [State.writeX]; split <;> rfl

@[simp] theorem writeX_freeDraws (s : State) (i : RegIdx) (v : Word) : (s.writeX i v).freeDraws = s.freeDraws := by
  rw [State.writeX]; split <;> rfl

@[simp] theorem writeX_inputs (s : State) (i : RegIdx) (v : Word) : (s.writeX i v).inputs = s.inputs := by
  rw [State.writeX]; split <;> rfl

@[simp] theorem notePmpWrite_vregs (id : CsrId) (s : State) : (notePmpWrite id s).vregs = s.vregs := by
  rw [notePmpWrite]; split <;> rfl

@[simp] theorem notePmpWrite_mode (id : CsrId) (s : State) : (notePmpWrite id s).mode = s.mode := by
  rw [notePmpWrite]; split <;> rfl

@[simp] theorem notePmpWrite_shadowTable (id : CsrId) (s : State) : (notePmpWrite id s).shadowTable = s.shadowTable := by
  rw [notePmpWrite]; split <;> rfl

@[simp] theorem notePmpWrite_restrictedTable (id : CsrId) (s : State) : (notePmpWrite id s).restrictedTable = s.restrictedTable := by
  rw [notePmpWrite]; split <;> rfl

@[simp] theorem notePmpWrite_x (id : CsrId) (s : State) : (notePmpWrite id s).x = s.x := by
  rw [notePmpWrite]; split <;> rfl

@[simp] theorem notePmpWrite_pc (id : CsrId) (s : State) : (notePmpWrite id s).pc = s.pc := by
  rw [notePmpWrite]; split <;> rfl

@[simp] theorem notePmpWrite_liveSel (id : CsrId) (s : State) : (notePmpWrite id s).liveSel = s.liveSel := by
  rw [notePmpWrite]; split <;> rfl

@[simp] theorem notePmpWrite_origTable (id : CsrId) (s : State) : (notePmpWrite id s).origTable = s.origTable := by
  rw [notePmpWrite]; split <;> rfl

@[simp] theorem notePmpWrite_guestSize (id : CsrId) (s : State) : (notePmpWrite id s).guestSize = s.guestSize := by
  rw [notePmpWrite]; split <;> rfl

@[simp] theorem notePmpWrite_killed (id : CsrId) (s : State) : (notePmpWrite id s).killed = s.killed := by
  rw [notePmpWrite]; split <;> rfl

@[simp] theorem notePmpWrite_faulted (id : CsrId) (s : State) : (notePmpWrite id s).faulted = s.faulted := by
  rw [notePmpWrite]; split <;> rfl

@[simp] theorem notePmpWrite_mem (id : CsrId) (s : State) : (notePmpWrite id s).mem = s.mem := by
  rw [notePmpWrite]; split <;> rfl

@[simp] theorem notePmpWrite_tlbFlushes (id : CsrId) (s : State) : (notePmpWrite id s).tlbFlushes = s.tlbFlushes := by
  rw [notePmpWrite]; split <;> rfl

@[simp] theorem notePmpWrite_freeDraws (id : CsrId) (s : State) : (notePmpWrite id s).freeDraws = s.freeDraws := by
  rw [notePmpWrite]; split <;> rfl

@[simp] theorem notePmpWrite_inputs (id : CsrId) (s : State) : (notePmpWrite id s).inputs = s.inputs := by
  rw [notePmpWrite]; split <;> rfl

@[simp] theorem notePmpWrite_pmpConfiguration (id : CsrId) (s : State) :
    (notePmpWrite id s).pmpConfiguration = (pmpCodes.contains id || s.pmpConfiguration) := by
  rw [notePmpWrite]; split <;> simp_all

end Sys2Proof.Machine
end

