-- ==== Sys2Proof/Laws/Ops.lean ====
section
/-! SUPPORT. What each shared operation and each meaning can answer, said once (spec 42_privilege_transitions.md,
43_csr_access.md, 60_exceptions.md). -/

namespace Sys2Proof.Machine

/-! ### Raising and finishing -/

@[simp] theorem finish_ok (s t : State) : finish s (.ok t) = .next t := rfl

@[simp] theorem finish_violation (s : State) (v : Violation) :
    finish s (.error (.violation v)) = .next (violationSequence v s) := rfl

@[simp] theorem finish_internalFault (s : State) (r : InternalFault) :
    finish s (.error (.internalFault r)) = .next (haltSequence r s) := rfl

@[simp] theorem finish_stop (s : State) (f : Fault) : finish s (.error (.stop f)) = .fault f := rfl

@[simp] theorem raiseEvent_violation (s : State) (v : Violation) :
    raiseEvent s (.violation v) = .next (violationSequence v s) := rfl

@[simp] theorem raiseEvent_internalFault (s : State) (r : InternalFault) :
    raiseEvent s (.internalFault r) = .next (haltSequence r s) := rfl

@[simp] theorem raiseEvent_stop (s : State) (f : Fault) : raiseEvent s (.stop f) = .fault f := rfl

/-- The reason of a violation selects nothing (R171). -/
theorem violationSequence_reason (v w : Violation) (s : State) : violationSequence v s = violationSequence w s := rfl

theorem raiseEvent_next {s t : State} {e : Raise} (h : raiseEvent s e = .next t) :
    (∃ v, e = .violation v ∧ t = violationSequence v s) ∨ ∃ r, e = .internalFault r ∧ t = haltSequence r s := by
  cases e with
  | violation v => exact .inl ⟨v, rfl, by simpa using h.symm⟩
  | internalFault r => exact .inr ⟨r, rfl, by simpa using h.symm⟩
  | stop f => cases h

theorem finish_next {s t : State} {e : Except Raise State} (h : finish s e = .next t) :
    e = .ok t ∨ (∃ v, e = .error (.violation v) ∧ t = violationSequence v s) ∨
      ∃ r, e = .error (.internalFault r) ∧ t = haltSequence r s := by
  cases e with
  | ok u => exact .inl (by simpa using h)
  | error r =>
    rcases raiseEvent_next h with ⟨v, rfl, hv⟩ | ⟨r, rfl, hr⟩
    · exact .inr (.inl ⟨v, rfl, hv⟩)
    · exact .inr (.inr ⟨r, rfl, hr⟩)

theorem finish_eq_fault {s : State} {e : Except Raise State} {f : Fault} (h : finish s e = .fault f) :
    e = .error (.stop f) := by
  cases e with
  | ok u => cases h
  | error r =>
    cases r with
    | violation v => cases h
    | internalFault r => cases h
    | stop g => simpa using h

theorem finish_not_refused (s : State) (e : Except Raise State) (r : Refusal) : finish s e ≠ .refused r := by
  rcases e with (v | r | f) | u <;> simp

/-- `Initialize()` leaves the context at its reset values (R48, R100). -/
theorem initContext_contextReset (s : State) : (initContext s).ContextReset := by
  refine ⟨fun r => ?_, rfl, rfl, rfl, rfl, rfl⟩
  cases r <;> rfl

/-- What the violation sequence leaves (R171). -/
theorem violationSequence_killedFrom (v : Violation) (s : State) : s.KilledFrom (violationSequence v s) :=
  ⟨rfl, initContext_contextReset _, rfl, ⟨fun _ => rfl, rfl, rfl, rfl, fun _ => rfl, rfl, rfl, rfl⟩⟩

/-- The reason of an internal fault selects nothing (R172). -/
theorem haltSequence_reason (r q : InternalFault) (s : State) : haltSequence r s = haltSequence q s := rfl

/-- What an internal fault leaves (R172). -/
theorem haltSequence_haltedFrom (r : InternalFault) (s : State) : s.HaltedFrom (haltSequence r s) :=
  ⟨rfl, rfl, fun _ => rfl, rfl, rfl, fun _ => rfl, rfl, rfl⟩

/-- A free table is canonical. -/
theorem freeTable_wf (entries : List (BitVec 52 × BitVec 52 × Nat)) : (freeTable entries).wf = true := by
  suffices h : ∀ t : Table, t.wf = true →
      (entries.foldl (fun t c => t.put c.1.toNat ⟨c.2.1, c.2.2⟩) t).wf = true from h [] rfl
  induction entries with
  | nil => exact fun t ht => ht
  | cons c cs ih => exact fun t ht => ih _ (Table.wf_put ht c.1.isLt _)

/-! ### The lazy shadow, the fetch, the synchronisation point -/

/-- What step 1 of a `TRAP` can answer (R111). -/
theorem ensureShadow_cases (s : State) :
    (∃ t, s.shadowTable = some t ∧ ensureShadow s = .ok s) ∨
    (∃ t, s.shadowTable = none ∧ buildShadow s.origTable s.guestSize = some t ∧
      ensureShadow s = .ok { s with shadowTable := some t }) ∨
    (s.shadowTable = none ∧ buildShadow s.origTable s.guestSize = none ∧
      ensureShadow s = .error (.internalFault .inconsistentGuestMapping)) := by
  rw [ensureShadow]
  cases h : s.shadowTable with
  | some t => exact .inl ⟨t, rfl, rfl⟩
  | none =>
    cases hb : buildShadow s.origTable s.guestSize with
    | some t => exact .inr (.inl ⟨t, rfl, rfl, rfl⟩)
    | none => exact .inr (.inr ⟨rfl, rfl, rfl⟩)

/-- Step 1 of a `TRAP` changes nothing but the shadow (R111). -/
theorem ensureShadow_eq {s u : State} (h : ensureShadow s = .ok u) : u = { s with shadowTable := u.shadowTable } := by
  rcases ensureShadow_cases s with ⟨t, ht, h'⟩ | ⟨t, _, _, h'⟩ | ⟨_, _, h'⟩ <;> rw [h'] at h <;> cases h <;> rfl

/-- After step 1 the shadow is there (R111). -/
theorem ensureShadow_present {s u : State} (h : ensureShadow s = .ok u) : u.shadowTable ≠ none := by
  rcases ensureShadow_cases s with ⟨t, ht, h'⟩ | ⟨t, _, _, h'⟩ | ⟨_, _, h'⟩ <;> rw [h'] at h <;> cases h <;> simp_all

/-- A violation after step 1 leaves what a violation before it would (R10). -/
theorem killedFrom_of_ensureShadow {s u t : State} (h : ensureShadow s = .ok u) (hk : u.KilledFrom t) :
    s.KilledFrom t := by
  rw [ensureShadow_eq h] at hk
  exact ⟨hk.1, hk.2, hk.3, ⟨hk.4.1, hk.4.2, hk.4.3, hk.4.4, hk.4.5, hk.4.6, hk.4.7, hk.4.8⟩⟩

/-- An internal fault after step 1 leaves what one before it would (R172). -/
theorem haltedFrom_of_ensureShadow {s u t : State} (h : ensureShadow s = .ok u) (hk : u.HaltedFrom t) :
    s.HaltedFrom t := by
  rw [ensureShadow_eq h] at hk
  exact ⟨hk.1, hk.2, hk.3, hk.4, hk.5, hk.6, hk.7, hk.8⟩

/-- The alignment test of `Fetch` is divisibility by 4 (R66). -/
theorem aligned_iff (pc : Word) : pc.extractLsb' 0 2 = 0#2 ↔ pc.toNat % 4 = 0 := by
  rw [BitVec.toNat_eq]; simp

/-- What `Translate` can answer (R65). -/
theorem translateAddr_cases (s : State) (va : Word) :
    (liveTable s = none ∧ translateAddr s va = .error (.stop .absentTable)) ∨
    (∃ tbl, liveTable s = some tbl ∧ tbl.find (vpnOf va) = none ∧
      translateAddr s va = .error (.internalFault .fetchUnmapped)) ∨
    (∃ tbl e, liveTable s = some tbl ∧ tbl.find (vpnOf va) = some e ∧ translateAddr s va = .ok (e.pa + offOf va)) := by
  rw [translateAddr]
  cases h : liveTable s with
  | none => exact .inl ⟨rfl, rfl⟩
  | some tbl =>
    cases he : tbl.find (vpnOf va) with
    | none => exact .inr (.inl ⟨tbl, rfl, he, by simp [he]⟩)
    | some e => exact .inr (.inr ⟨tbl, e, rfl, he, by simp [he]⟩)

/-- What `Fetch` can answer (R66). -/
theorem fetch_cases (s : State) (va : Word) :
    (va.toNat % 4 ≠ 0 ∧ fetch s va = .error (.internalFault .fetchMisaligned)) ∨
    (va.toNat % 4 = 0 ∧ liveTable s = none ∧ fetch s va = .error (.stop .absentTable)) ∨
    (va.toNat % 4 = 0 ∧ ∃ tbl, liveTable s = some tbl ∧ tbl.find (vpnOf va) = none ∧
      fetch s va = .error (.internalFault .fetchUnmapped)) ∨
    (va.toNat % 4 = 0 ∧ ∃ tbl e, liveTable s = some tbl ∧ tbl.find (vpnOf va) = some e ∧
      fetch s va = .ok (s.mem.readWord (e.pa + offOf va))) := by
  by_cases h : va.toNat % 4 = 0
  · have ha := (aligned_iff va).2 h
    rcases translateAddr_cases s va with ⟨hl, ht⟩ | ⟨tbl, hl, hf, ht⟩ | ⟨tbl, e, hl, hf, ht⟩
    · exact .inr (.inl ⟨h, hl, by simp [fetch, ha, ht]⟩)
    · exact .inr (.inr (.inl ⟨h, tbl, hl, hf, by simp [fetch, ha, ht]⟩))
    · exact .inr (.inr (.inr ⟨h, tbl, e, hl, hf, by simp [fetch, ha, ht]⟩))
  · exact .inl ⟨h, by simp [fetch, mt (aligned_iff va).1 h]⟩

/-- What the synchronisation point can answer (R131). -/
theorem pmpSync_cases (s : State) :
    (s.shadowTable = none ∧ pmpSync s = .error (.stop .absentTable)) ∨
    (∃ sh, s.shadowTable = some sh ∧ buildRestricted sh s.guestSize (pmpRegions s.vregs) = none ∧
      pmpSync s = .error (.internalFault .inconsistentGuestMapping)) ∨
    (∃ sh t, s.shadowTable = some sh ∧ buildRestricted sh s.guestSize (pmpRegions s.vregs) = some t ∧
      pmpSync s = .ok (install .restricted { s with restrictedTable := some t })) := by
  rw [pmpSync]
  cases h : s.shadowTable with
  | none => exact .inl ⟨rfl, rfl⟩
  | some sh =>
    cases hb : buildRestricted sh s.guestSize (pmpRegions s.vregs) with
    | none => exact .inr (.inl ⟨sh, rfl, hb, by simp [hb]⟩)
    | some t => exact .inr (.inr ⟨sh, t, rfl, hb, by simp [hb]⟩)

/-! ### The checks of the meanings -/

theorem below_supervisor_iff (m : Mode) : m.num < Mode.supervisor.num ↔ m = .user := by cases m <;> decide

theorem csrCheck_allowed {s : State} {r : Csr} {id : CsrId} (hr : r.code = id) (h : r.minMode.num ≤ s.mode.num) :
    csrCheck s id = .ok r := by
  subst hr; simp [csrCheck, Nat.not_lt.2 h]

theorem csrCheck_insufficient {s : State} {r : Csr} {id : CsrId} (hr : r.code = id)
    (h : s.mode.num < r.minMode.num) : csrCheck s id = .error (.violation .insufficientPrivilege) := by
  subst hr; simp [csrCheck, h]

theorem csrCheck_unknown {s : State} {id : CsrId} (h : ∀ r : Csr, r.code ≠ id) :
    csrCheck s id = .error (.violation .unknownRegister) := by
  simp [csrCheck, (lookupCsr_eq_none_iff id).2 h]

/-- The five PMP identifiers, on the decoded immediate (R83, R143). -/
theorem pmpCodes_contains_csrIdOf (csr : Imm12) :
    pmpCodes.contains (csrIdOf csr) = decide (csr ∈ [0x3A0#12, 0x3B0#12, 0x3B1#12, 0x3B2#12, 0x3B3#12]) := by
  have key : ∀ k : Imm12, csrIdOf csr = k.setWidth 32 ↔ csr = k := by
    intro k
    constructor
    · intro h
      rw [csrIdOf, BitVec.toNat_eq, BitVec.toNat_setWidth, BitVec.toNat_setWidth] at h
      have := csr.isLt
      have := k.isLt
      exact BitVec.eq_of_toNat_eq (by omega)
    · rintro rfl; rfl
  rw [Bool.eq_iff_iff]
  simp only [pmpCodes, List.contains_iff_mem, List.mem_cons, List.not_mem_nil, or_false, decide_eq_true_eq]
  rw [← key 0x3A0#12, ← key 0x3B0#12, ← key 0x3B1#12, ← key 0x3B2#12, ← key 0x3B3#12]
  rfl

/-! ### The meanings -/

/-- The effect of a CSRRW that passes its check (R141). -/
def csrWritten (r : Csr) (rs1 : RegIdx) (s : State) : State :=
  advancePc (notePmpWrite r.code (s.writeVReg r (s.readX rs1)))

/-- The effect of a CSRRS that passes its check (R142). -/
def csrWasRead (r : Csr) (rd : RegIdx) (s : State) : State := advancePc (s.writeX rd (s.vregs.get r))

/-- An identifier that names a register is its code. -/
theorem code_of_lookup {id : CsrId} {r : Csr} (h : lookupCsr id = some r) : r.code = id :=
  (lookupCsr_eq_some_iff id r).1 h

theorem csrWrite_allowed {s : State} {r : Csr} {id : CsrId} (hr : r.code = id) (h : r.minMode.num ≤ s.mode.num)
    (i : RegIdx) : csrWrite id i s = .ok (csrWritten r i s) := by
  rw [csrWrite, csrCheck_allowed hr h, csrWritten, hr]

theorem csrRead_allowed {s : State} {r : Csr} {id : CsrId} (hr : r.code = id) (h : r.minMode.num ≤ s.mode.num)
    (i : RegIdx) : csrRead id i s = .ok (csrWasRead r i s) := by
  rw [csrRead, csrCheck_allowed hr h, csrWasRead]

/-- What CSRRW's function can answer (R141). -/
theorem csrWrite_cases (id : CsrId) (rs1 : RegIdx) (s : State) :
    (∃ v, csrWrite id rs1 s = .error (.violation v)) ∨
    (∃ r, lookupCsr id = some r ∧ r.minMode.num ≤ s.mode.num ∧ csrWrite id rs1 s = .ok (csrWritten r rs1 s)) := by
  rcases csrCheck_cases s id with ⟨-, hc⟩ | ⟨r, -, -, hc⟩ | ⟨r, hr, hm, -⟩
  · exact .inl ⟨_, by rw [csrWrite, hc]⟩
  · exact .inl ⟨_, by rw [csrWrite, hc]⟩
  · exact .inr ⟨r, hr, hm, csrWrite_allowed (code_of_lookup hr) hm rs1⟩

/-- What CSRRS's function can answer (R142). -/
theorem csrRead_cases (id : CsrId) (rd : RegIdx) (s : State) :
    (∃ v, csrRead id rd s = .error (.violation v)) ∨
    (∃ r, lookupCsr id = some r ∧ r.minMode.num ≤ s.mode.num ∧ csrRead id rd s = .ok (csrWasRead r rd s)) := by
  rcases csrCheck_cases s id with ⟨-, hc⟩ | ⟨r, -, -, hc⟩ | ⟨r, hr, hm, -⟩
  · exact .inl ⟨_, by rw [csrRead, hc]⟩
  · exact .inl ⟨_, by rw [csrRead, hc]⟩
  · exact .inr ⟨r, hr, hm, csrRead_allowed (code_of_lookup hr) hm rd⟩

/-- What MRET's function can answer (R130, R131). -/
theorem mret_cases (s : State) :
    (s.mode = .user ∧ mret s = .error (.violation .mretAtUser)) ∨
    (s.mode ≠ .user ∧ s.pmpConfiguration = false ∧ mret s = .ok (returnThroughMepc s)) ∨
    (s.mode ≠ .user ∧ s.pmpConfiguration = true ∧ s.shadowTable = none ∧ mret s = .error (.stop .absentTable)) ∨
    (s.mode ≠ .user ∧ s.pmpConfiguration = true ∧ ∃ sh, s.shadowTable = some sh ∧
      buildRestricted sh s.guestSize (pmpRegions s.vregs) = none ∧
      mret s = .error (.internalFault .inconsistentGuestMapping)) ∨
    (s.mode ≠ .user ∧ s.pmpConfiguration = true ∧ ∃ sh u, s.shadowTable = some sh ∧
      buildRestricted sh s.guestSize (pmpRegions s.vregs) = some u ∧
      mret s = .ok (install .restricted { returnThroughMepc s with restrictedTable := some u })) := by
  by_cases hm : s.mode = .user
  · exact .inl ⟨hm, by rw [mret, if_pos ((below_supervisor_iff _).2 hm)]⟩
  have hn := mt (below_supervisor_iff s.mode).1 hm
  cases hf : s.pmpConfiguration with
  | false => exact .inr (.inl ⟨hm, rfl, by simp [mret, hn, hf]⟩)
  | true =>
    have he : mret s = pmpSync (returnThroughMepc s) := by rw [mret, if_neg hn, if_pos hf]
    rcases pmpSync_cases (returnThroughMepc s) with ⟨hs, h⟩ | ⟨sh, hs, hb, h⟩ | ⟨sh, u, hs, hb, h⟩
    · exact .inr (.inr (.inl ⟨hm, rfl, hs, he.trans h⟩))
    · exact .inr (.inr (.inr (.inl ⟨hm, rfl, sh, hs, hb, he.trans h⟩)))
    · exact .inr (.inr (.inr (.inr ⟨hm, rfl, sh, u, hs, hb, he.trans h⟩)))

/-- Everything an instruction that answers a next state can have done. -/
theorem exec_next {i : Instr} {s t : State} (h : exec i s = .next t) :
    (∃ v, t = violationSequence v s) ∨
    (i = .mret ∧ s.mode ≠ .user ∧ s.pmpConfiguration = true ∧ t = haltSequence .inconsistentGuestMapping s ∧
      ∃ sh, s.shadowTable = some sh ∧ buildRestricted sh s.guestSize (pmpRegions s.vregs) = none) ∨
    (i = .ecall ∧ s.mode = .user ∧ t = enterSupervisor s) ∨
    (i = .ecall ∧ s.mode = .supervisor ∧ t = enterMachine s) ∨
    (i = .sret ∧ s.mode = .supervisor ∧ t = returnThroughSepc s) ∨
    (i = .mret ∧ s.mode ≠ .user ∧ s.pmpConfiguration = false ∧ t = returnThroughMepc s) ∨
    (i = .mret ∧ s.mode ≠ .user ∧ s.pmpConfiguration = true ∧ ∃ sh u, s.shadowTable = some sh ∧
      buildRestricted sh s.guestSize (pmpRegions s.vregs) = some u ∧
      t = install .restricted { returnThroughMepc s with restrictedTable := some u }) ∨
    (∃ csr rs1 rd r, i = .csrrw csr rs1 rd ∧ lookupCsr (csrIdOf csr) = some r ∧
      r.minMode.num ≤ s.mode.num ∧ t = csrWritten r rs1 s) ∨
    (∃ csr rs1 rd r, i = .csrrs csr rs1 rd ∧ lookupCsr (csrIdOf csr) = some r ∧
      r.minMode.num ≤ s.mode.num ∧ t = csrWasRead r rd s) := by
  cases i with
  | ecall =>
    rw [exec, execEcall] at h
    cases hm : s.mode <;> rw [ecall, hm] at h <;> cases h
    · exact .inr (.inr (.inl ⟨rfl, rfl, rfl⟩))
    · exact .inr (.inr (.inr (.inl ⟨rfl, rfl, rfl⟩)))
    · exact .inl ⟨_, rfl⟩
  | sret =>
    rw [exec, execSret] at h
    cases hm : s.mode <;> rw [sret, hm] at h <;> cases h
    · exact .inl ⟨_, rfl⟩
    · exact .inr (.inr (.inr (.inr (.inl ⟨rfl, rfl, rfl⟩))))
    · exact .inl ⟨_, rfl⟩
  | mret =>
    rw [exec, execMret] at h
    rcases mret_cases s with ⟨-, e⟩ | ⟨hm, hf, e⟩ | ⟨-, -, -, e⟩ | ⟨hm, hf, sh, hs, hb, e⟩ | ⟨hm, hf, sh, u, hs, hb, e⟩ <;>
      rw [e] at h <;> cases h
    · exact .inl ⟨_, rfl⟩
    · exact .inr (.inr (.inr (.inr (.inr (.inl ⟨rfl, hm, hf, rfl⟩)))))
    · exact .inr (.inl ⟨rfl, hm, hf, rfl, sh, hs, hb⟩)
    · exact .inr (.inr (.inr (.inr (.inr (.inr (.inl ⟨rfl, hm, hf, sh, u, hs, hb, rfl⟩))))))
  | csrrw csr rs1 rd =>
    rw [exec, execCsrrw] at h
    rcases csrWrite_cases (csrIdOf csr) rs1 s with ⟨v, e⟩ | ⟨r, hr, hm, e⟩ <;> rw [e] at h <;> cases h
    · exact .inl ⟨v, rfl⟩
    · exact .inr (.inr (.inr (.inr (.inr (.inr (.inr (.inl ⟨csr, rs1, rd, r, rfl, hr, hm, rfl⟩)))))))
  | csrrs csr rs1 rd =>
    rw [exec, execCsrrs] at h
    rcases csrRead_cases (csrIdOf csr) rd s with ⟨v, e⟩ | ⟨r, hr, hm, e⟩ <;> rw [e] at h <;> cases h
    · exact .inl ⟨v, rfl⟩
    · exact .inr (.inr (.inr (.inr (.inr (.inr (.inr (.inr ⟨csr, rs1, rd, r, rfl, hr, hm, rfl⟩)))))))

end Sys2Proof.Machine
end

