-- ==== Sys2Proof/Laws/Step.lean ====
section
/-! SUPPORT. What one step can do, said once (spec 00_scope.md R3; 41_decode_dispatch.md R110). -/

namespace Sys2Proof.Machine

/-- With `TRAP` next, a step is the transaction, or stops where `faulted` is set (R110). -/
theorem step_trapNext {s : State} (h : s.trapNext = true) :
    step s = if s.faulted then .fault .halted else trapTransaction s.taken := by
  obtain ⟨_, _, _, _, _, _, _, _, _, _, _, _, _, _, _, inputs⟩ := s
  rcases inputs with _ | ⟨_ | _, _⟩ <;> first | rfl | cases h

/-- A step on a queued input is that input's effect. -/
theorem step_cons {s : State} {i : HostInput} {rest : List HostInput} (h : s.inputs = i :: rest) :
    step s = takeInput i s.taken := by
  simp [step, takeStep, h, State.taken]

theorem step_nil {s : State} (h : s.inputs = []) : step s = takeInput .trap s.taken := by
  have : s.taken = s := by cases s; simp only at h; subst h; rfl
  simp [step, takeStep, h, this]

/-- Every step takes one input. -/
theorem step_eq (s : State) : ∃ i, step s = takeInput i s.taken := by
  cases h : s.inputs with
  | nil => exact ⟨_, step_nil h⟩
  | cons i rest => exact ⟨i, step_cons h⟩

/-- What a `TRAP` that answers a next state has done: halted the block, killed the guest, or, with the shadow present,
run one instruction (R110, R113). -/
theorem trapTransaction_next {s t : State} (h : trapTransaction s = .next t) :
    (s.HaltedFrom t ∧ ∃ r, ensureShadow s = .error (.internalFault r) ∧ t = haltSequence r s) ∨
    ∃ u, ensureShadow s = .ok u ∧
      ((∃ r, fetch u u.pc = .error (.internalFault r) ∧ t = haltSequence r u) ∨
        ∃ w, fetch u u.pc = .ok w ∧
          ((∃ i, decodeWord w = .ok i ∧ exec i u = .next t) ∨
            ∃ r v, decodeWord w = .error r ∧ t = violationSequence v u)) := by
  rw [trapTransaction] at h
  cases hs : ensureShadow s with
  | error e =>
    rw [hs] at h
    rcases ensureShadow_cases s with ⟨_, _, h'⟩ | ⟨_, _, _, h'⟩ | ⟨_, _, h'⟩ <;> rw [h'] at hs <;> cases hs
    cases h
    exact .inl ⟨haltSequence_haltedFrom _ s, _, rfl, rfl⟩
  | ok u =>
    rw [hs] at h
    refine .inr ⟨u, rfl, ?_⟩
    dsimp only at h
    rcases fetch_cases u u.pc with ⟨-, e⟩ | ⟨-, -, e⟩ | ⟨-, _, -, -, e⟩ | ⟨-, _, _, -, -, e⟩ <;> rw [e] at h
    · cases h; exact .inl ⟨_, e, rfl⟩
    · cases h
    · cases h; exact .inl ⟨_, e, rfl⟩
    · refine .inr ⟨_, e, ?_⟩
      simp only [dispatchWord] at h
      cases hd : decodeWord (u.mem.readWord _) with
      | ok i => rw [hd] at h; exact .inl ⟨i, rfl, h⟩
      | error r => rw [hd] at h; cases h; exact .inr ⟨r, _, rfl, rfl⟩

/-- The same, in the terms of the claims: the block has halted, the guest is killed, or an instruction has run. -/
theorem trapTransaction_cases {s t : State} (h : trapTransaction s = .next t) :
    s.HaltedFrom t ∨ s.KilledFrom t ∨
      ∃ u w i, ensureShadow s = .ok u ∧ fetch u u.pc = .ok w ∧ decodeWord w = .ok i ∧ exec i u = .next t := by
  rcases trapTransaction_next h with ⟨h, -⟩ | ⟨u, hu, ⟨r, -, rfl⟩ | ⟨w, hw, ⟨i, hi, he⟩ | ⟨r, v, -, rfl⟩⟩⟩
  · exact .inl h
  · exact .inl (haltedFrom_of_ensureShadow hu (haltSequence_haltedFrom r u))
  · exact .inr (.inr ⟨u, w, i, hu, hw, hi, he⟩)
  · exact .inr (.inl (killedFrom_of_ensureShadow hu (violationSequence_killedFrom v u)))

/-- The part of the state that no input of the environment touches. -/
structure State.SameContext (s t : State) : Prop where
  vregs : t.vregs = s.vregs
  mode : t.mode = s.mode
  flag : t.pmpConfiguration = s.pmpConfiguration
  shadow : t.shadowTable = s.shadowTable
  restricted : t.restrictedTable = s.restrictedTable
  live : t.liveSel = s.liveSel
  faulted : t.faulted = s.faulted
  flushes : t.tlbFlushes = s.tlbFlushes
  draws : t.freeDraws = s.freeDraws

/-- Everything a step that answers a next state can have done: a `TRAP`, an `INIT`, a hardware reset, or one change by
the environment. -/
theorem step_next {s t : State} (h : step s = .next t) :
    (s.trapNext = true ∧ s.faulted = false ∧ trapTransaction s.taken = .next t) ∨
    (s.trapNext = false ∧ s.faulted = false ∧ s.inputs.head? = some .init ∧ t = initContext s.taken) ∨
    (s.trapNext = false ∧ s.inputs.head? = some .reset ∧ t = hardwareReset s.taken) ∨
    (s.trapNext = false ∧ s.SameContext t ∧ (s.inputs.head? = some .freshProcess ∨ t.killed = s.killed) ∧
      ((t.mem = s.mem ∧ t.origTable = s.origTable) ∨
       (∃ (a : Word) (b : Byte), t.mem = s.mem.write a.toNat b ∧ t.origTable = s.origTable) ∨
       (∃ (vpn : BitVec 52) (e : Pte), t.mem = s.mem ∧ t.origTable = s.origTable.put vpn.toNat e) ∨
       (∃ vpn : BitVec 52, t.mem = s.mem ∧ t.origTable = s.origTable.drop vpn.toNat))) := by
  cases hin : s.inputs with
  | nil =>
    have ht : s.trapNext = true := by simp [State.trapNext, hin]
    rw [step_trapNext ht] at h
    split at h
    · cases h
    · next hf => exact .inl ⟨ht, by simpa using hf, h⟩
  | cons i rest =>
    cases i with
    | trap =>
      have ht : s.trapNext = true := by simp [State.trapNext, hin]
      rw [step_trapNext ht] at h
      split at h
      · cases h
      · next hf => exact .inl ⟨ht, by simpa using hf, h⟩
    | init =>
      have ht : s.trapNext = false := by simp [State.trapNext, hin]
      rw [step_cons hin, takeInput] at h
      split at h
      · cases h
      · next hf => exact .inr (.inl ⟨ht, by simpa using hf, rfl, by simpa [initTransaction] using h.symm⟩)
    | reset =>
      have ht : s.trapNext = false := by simp [State.trapNext, hin]
      rw [step_cons hin] at h
      exact .inr (.inr (.inl ⟨ht, rfl, by simpa [takeInput] using h.symm⟩))
    | setReg r v =>
      have ht : s.trapNext = false := by simp [State.trapNext, hin]
      rw [step_cons hin] at h
      cases h
      exact .inr (.inr (.inr ⟨ht, ⟨by simp, by simp, by simp, by simp, by simp, by simp, by simp, by simp, by simp⟩,
        .inr (by simp), .inl (by simp)⟩))
    | setPc v =>
      have ht : s.trapNext = false := by simp [State.trapNext, hin]
      rw [step_cons hin] at h
      cases h
      exact .inr (.inr (.inr ⟨ht, ⟨rfl, rfl, rfl, rfl, rfl, rfl, rfl, rfl, rfl⟩, .inr rfl, .inl ⟨rfl, rfl⟩⟩))
    | setByte a b =>
      have ht : s.trapNext = false := by simp [State.trapNext, hin]
      rw [step_cons hin] at h
      cases h
      exact .inr (.inr (.inr ⟨ht, ⟨rfl, rfl, rfl, rfl, rfl, rfl, rfl, rfl, rfl⟩, .inr rfl, .inr (.inl ⟨a, b, rfl, rfl⟩)⟩))
    | mapPage vpn e =>
      have ht : s.trapNext = false := by simp [State.trapNext, hin]
      rw [step_cons hin] at h
      cases h
      exact .inr (.inr (.inr ⟨ht, ⟨rfl, rfl, rfl, rfl, rfl, rfl, rfl, rfl, rfl⟩, .inr rfl,
        .inr (.inr (.inl ⟨vpn, e, rfl, rfl⟩))⟩))
    | unmapPage vpn =>
      have ht : s.trapNext = false := by simp [State.trapNext, hin]
      rw [step_cons hin] at h
      cases h
      exact .inr (.inr (.inr ⟨ht, ⟨rfl, rfl, rfl, rfl, rfl, rfl, rfl, rfl, rfl⟩, .inr rfl,
        .inr (.inr (.inr ⟨vpn, rfl, rfl⟩))⟩))
    | setGuestSize n =>
      have ht : s.trapNext = false := by simp [State.trapNext, hin]
      rw [step_cons hin] at h
      cases h
      exact .inr (.inr (.inr ⟨ht, ⟨rfl, rfl, rfl, rfl, rfl, rfl, rfl, rfl, rfl⟩, .inr rfl, .inl ⟨rfl, rfl⟩⟩))
    | freshProcess =>
      have ht : s.trapNext = false := by simp [State.trapNext, hin]
      rw [step_cons hin] at h
      cases h
      exact .inr (.inr (.inr ⟨ht, ⟨rfl, rfl, rfl, rfl, rfl, rfl, rfl, rfl, rfl⟩, .inl rfl, .inl ⟨rfl, rfl⟩⟩))

end Sys2Proof.Machine
end

