-- ==== Sys2Proof/Tests/Slice0.lean ====
section
/-! SUPPORT. The model's own tests: words, single instructions and single steps with the results that the spec's vectors
give (95_test_vectors.md), and for every statement with hypotheses a concrete state and operands that meet them. -/

namespace Sys2Proof.Tests

open Sys2Proof.Machine

/-! ### Helpers -/

/-- The next state of an outcome. -/
def nextOf : Host.Outcome State Fault Refusal → Option State
  | .next t => some t
  | _ => none

theorem exists_next {o : Host.Outcome State Fault Refusal} (h : (nextOf o).isSome = true) : ∃ t, o = .next t := by
  cases o with
  | next t => exact ⟨t, rfl⟩
  | fault f => cases h
  | refused r => cases h

/-- The reset state at another mode and pc, with virtual registers `v`. -/
def stateAt (mode : Mode) (pc : Word) (v : VRegFile) : State :=
  { State.reset with mode := mode, pc := pc, vregs := v }

/-- A state about to trap on `w` at `0x80000000` in a one-page live table, its shadow already there and empty. -/
def trapAt (mode : Mode) (w : InstrWord) : State :=
  { State.reset with
    mode := mode
    pc := 0x80000000
    shadowTable := some []
    origTable := [(0x80000, ⟨0x80000, 0⟩)]
    mem := Memory.writeWord [] 0x80000000 w }

/-- The kernel window, mapped identically (R71). -/
def windowPages : Table := identityPages 1024 0x80000

/-- A freshly reset block whose host has mapped the window and put `w` at `0x80000000` (R202). -/
def bootAt (w : InstrWord) : State :=
  { State.reset with
    pc := 0x80000000
    origTable := windowPages
    mem := Memory.writeWord [] 0x80000000 w }

/-- The PMP registers of V-PMP-1, with MPP = 1 and a return address. -/
def pmpRegisters : VRegFile :=
  { VRegFile.reset with
    pmpaddr0 := 0x20080000
    pmpaddr1 := 0x200C0000
    pmpcfg0 := 0x0F00
    mstatus := 0x800
    mepc := 0x80300100 }

/-- The state of S7c: Machine mode, the flag set, the shadow built. -/
def pmpState : State :=
  { bootAt 0x30200073 with vregs := pmpRegisters, pmpConfiguration := true, shadowTable := some windowPages }

/-! ### Decoding (V-DEC) -/

theorem test_decode_ecall : decodeWord 0x00000073#32 = .ok .ecall := by decide

theorem test_decode_sret : decodeWord 0x10200073#32 = .ok .sret := by decide

theorem test_decode_mret : decodeWord 0x30200073#32 = .ok .mret := by decide

theorem test_decode_csrw_mepc : decodeWord 0x34151073#32 = .ok (.csrrw 0x341#12 10#5 0#5) := by decide

theorem test_decode_csrrw_sscratch : decodeWord 0x140515F3#32 = .ok (.csrrw 0x140#12 10#5 11#5) := by decide

theorem test_decode_csrr_mvendorid : decodeWord 0xF11025F3#32 = .ok (.csrrs 0xF11#12 0#5 11#5) := by decide

theorem test_decode_csrrs_sscratch : decodeWord 0x140525F3#32 = .ok (.csrrs 0x140#12 10#5 11#5) := by decide

/-- Bits 31 to 0 of `csrw mepc, a0`, field by field: imm12, rs1, funct3, rd, opcode (R81, R82). -/
theorem test_decode_bit_by_bit :
    decodeWord (0b001101000001#12 ++ 0b01010#5 ++ 0b001#3 ++ 0b00000#5 ++ 0b1110011#7) =
      .ok (.csrrw 0b001101000001#12 0b01010#5 0b00000#5) := by decide

/-- V-DEC-10 to V-DEC-23. -/
theorem test_decode_unrecognised :
    ([0x00100073, 0x10500073, 0x12000073, 0x00200073, 0x000000F3, 0x30208073, 0x140535F3, 0x140545F3, 0x1402D5F3,
      0x1402E5F3, 0x1402F5F3, 0x00000013, 0x00000000, 0xFFFFFFFF] : List InstrWord).all
        (fun w => (decodeWord w).toOption.isNone) = true := by decide

/-- The first byte of a word is its least significant one (R67). -/
theorem test_decode_little_endian :
    decode [0x73#8, 0x10#8, 0x15#8, 0x34#8] = .ok (.csrrw 0x341#12 10#5 0#5, []) := by decide

theorem test_decode_short : (decode [0x73#8, 0x10#8, 0x15#8]).toOption = none := by decide

theorem test_csr_identifier_is_zero_extended : csrIdOf 0xF11#12 = 0x00000F11#32 := by decide

/-! ### WellFormed: each check refuses a word -/

theorem test_wellFormed_instr : WellFormed (.csrrw 0xFFF#12 31#5 31#5) = true := by decide

/-- V-DEC-21: not SYSTEM. -/
theorem test_wellFormed_opcode : opcodeIsSystem 0x00000013#32 = false := by decide

/-- V-DEC-16: funct3 3. -/
theorem test_wellFormed_funct3 : funct3IsAdmitted 0x140535F3#32 = false := by decide

/-- V-DEC-14: ECALL's fields with rd = 1. -/
theorem test_wellFormed_fixed_word : fixedWordIsExact 0x000000F3#32 = false := by decide

/-! ### ECALL -/

/-- V-ECALL-1. -/
theorem test_ecall_user :
    (nextOf (exec .ecall (stateAt .user 0x1000 { VRegFile.reset with sstatus := 0x22, stvec := 0x80002000 }))).map
      (fun t => (t.mode, t.pc, t.vregs.sepc, t.vregs.sstatus, t.liveSel, t.tlbFlushes)) =
      some (.supervisor, 0x80002000, 0x1000, 0x20, .original, 0) := by decide

/-- V-ECALL-4b and V-ECALL-4: MPP 3 is overwritten with 1, the shadow becomes live. -/
theorem test_ecall_supervisor :
    (nextOf (exec .ecall
      (stateAt .supervisor 0x80002000 { VRegFile.reset with mstatus := 0x1808, mtvec := 0x80003000 }))).map
      (fun t => (t.mode, t.pc, t.vregs.mepc, t.vregs.mstatus, t.liveSel, t.tlbFlushes)) =
      some (.machine, 0x80003000, 0x80002000, 0x880, .shadow, 1) := by decide

/-! ### SRET -/

/-- V-SRET-3: bit 9 is not part of SPP. -/
theorem test_sret_bit9 :
    (nextOf (exec .sret (stateAt .supervisor 0 { VRegFile.reset with sstatus := 0x202, sepc := 0x2000 }))).map
      (fun t => (t.mode, t.pc, t.vregs.sstatus)) = some (.user, 0x2000, 0x200) := by decide

/-- V-SRET-2: SPP = 1 does not demote. -/
theorem test_sret_spp :
    (nextOf (exec .sret (stateAt .supervisor 0 { VRegFile.reset with sstatus := 0x122, sepc := 0x2000 }))).map
      (fun t => (t.mode, t.pc, t.vregs.sstatus)) = some (.supervisor, 0x2000, 0x122) := by decide

/-! ### MRET -/

/-- V-MRET-3 and V-MRET-5: MPP 3 and 2 leave the mode. -/
theorem test_mret_mpp :
    ((nextOf (exec .mret (stateAt .supervisor 0 { VRegFile.reset with mstatus := 0x1880, mepc := 0x80000200 }))).map
      (fun t => (t.mode, t.pc, t.vregs.mstatus)) = some (.supervisor, 0x80000200, 0x1888)) ∧
    ((nextOf (exec .mret (stateAt .machine 0 { VRegFile.reset with mstatus := 0x1000, mepc := 0x80000200 }))).map
      (fun t => (t.mode, t.pc, t.vregs.mstatus)) = some (.machine, 0x80000200, 0x1000)) := by decide

set_option maxRecDepth 100000 in
/-- S7c and V-PMP-1, with an empty user range: the pages 0x80000 to 0x801FF are pruned, 512 stay. -/
theorem test_mret_pmp :
    (nextOf (exec .mret pmpState)).map (fun t => (t.mode, t.pc, t.liveSel, t.tlbFlushes)) =
      some (.supervisor, 0x80300100, .restricted, 1) ∧
    ((nextOf (exec .mret pmpState)).bind (·.restrictedTable)).map (fun r => r.map Prod.fst) =
      some (List.range' 0x80200 512) := by decide

/-! ### CSRRW and CSRRS -/

/-- V-CSR-4: `rd` is ignored. -/
theorem test_csrrw_rd_ignored :
    (nextOf (exec (.csrrw 0x140#12 10#5 11#5)
      (((stateAt .supervisor 0 { VRegFile.reset with sscratch := 0x55 }).writeX 10#5 0x1234).writeX 11#5 0xAAAA))).map
      (fun t => (t.vregs.sscratch, t.readX 11#5, t.pc)) = some (0x1234, 0xAAAA, 4) := by decide

/-- V-CSR-10: a write to `pmpaddr0` from Supervisor kills the guest, with the flag clear. -/
theorem test_csrrw_refused :
    (nextOf (exec (.csrrw 0x3B0#12 10#5 0#5)
      ((stateAt .supervisor 0x80001000 VRegFile.reset).writeX 10#5 0x20080000))).map
      (fun t => (t.killed, t.pmpConfiguration, t.vregs.pmpaddr0, t.mode, t.pc)) =
      some (true, false, 0, .machine, 0x80001000) := by decide

/-- V-CSR-5: `rs1` is ignored. -/
theorem test_csrrs_rs1_ignored :
    (nextOf (exec (.csrrs 0x140#12 10#5 11#5)
      (((stateAt .supervisor 0 { VRegFile.reset with sscratch := 0x55 }).writeX 10#5 0x1234).writeX 11#5 0xAAAA))).map
      (fun t => (t.vregs.sscratch, t.readX 11#5, t.pc)) = some (0x55, 0x55, 4) := by decide

/-- V-CSR-8: `satp` is not in the table, so the guest is killed and `a0` is not zeroed. -/
theorem test_csrrs_unknown :
    (nextOf (exec (.csrrs 0x180#12 0#5 10#5)
      ((stateAt .machine 0x80000000 { VRegFile.reset with mtvec := 0x80003000 }).writeX 10#5 0x77))).map
      (fun t => (t.killed, t.vregs.mtvec, t.readX 10#5, t.pc)) = some (true, 0, 0x77, 0x80000000) := by decide

/-! ### Steps -/

set_option maxRecDepth 100000 in
/-- V-CSR-1 with an empty user range (V-PT-10): the first trap builds the shadow of the 1024 window pages. -/
theorem test_step_first_trap :
    (nextOf (step ((bootAt 0x34151073).writeX 10#5 0x80001000))).map
      (fun t => (t.vregs.mepc, t.pc, t.mode, t.liveSel, t.shadowTable.map (·.length))) =
      some (0x80001000, 0x80000004, .machine, .original, some 1024) := by decide

/-- V-DEC-10: EBREAK kills the guest. -/
theorem test_step_unrecognised :
    (nextOf (step (trapAt .user 0x00100073))).map (fun t => (t.killed, t.mode, t.pc)) =
      some (true, .machine, 0x80000000) := by decide

/-- V-FAULT-4: an absent page during the lazy construction comes before the misaligned `pc`. -/
theorem test_step_order_of_checks :
    ensureShadow { State.reset with pc := 0x80000002 } = .error (.internalFault .inconsistentGuestMapping) ∧
    (nextOf (step { State.reset with pc := 0x80000002 })).map (fun t => (t.faulted, t.killed)) =
      some (true, false) := ⟨rfl, by decide⟩

/-- V-FAULT-1. -/
theorem test_step_misaligned :
    fetch (trapAt .machine 0x34151073) 0x80000002 = .error (.internalFault .fetchMisaligned) ∧
    (nextOf (step { trapAt .machine 0x34151073 with pc := 0x80000002 })).map (fun t => (t.faulted, t.killed)) =
      some (true, false) := ⟨rfl, by decide⟩

/-- V-INIT-3: the block halts on an internal fault, and hardware reset brings it back. -/
theorem test_step_reset_after_fault :
    (nextOf (step { State.reset with inputs := [.trap, .reset] })).map (·.faulted) = some true ∧
    ((nextOf (step { State.reset with inputs := [.trap, .reset] })).bind (fun t => nextOf (step t))).map
      (fun t => (t.faulted, t.mode, t.shadowTable.isNone, t.liveSel, t.vregs.mtvec)) =
      some (false, .machine, true, .original, 0) := by decide

/-- The bytes of `csrw mepc, a0` lie little-endian from the physical address on (section 0 of the vectors). -/
theorem test_fetch_little_endian :
    fetch { trapAt .machine 0 with mem := [(0x80000004, 0x73), (0x80000005, 0x10), (0x80000006, 0x15), (0x80000007, 0x34)] }
      0x80000004 = .ok 0x34151073 := by rfl

/-- A word nothing has written is fetched all the same, as the four launch bytes. -/
theorem test_fetch_unwritten :
    fetch { trapAt .machine 0 with mem := [] } 0x80000000 =
      .ok (wordOfBytes (Config.launchByte 0x80000000) (Config.launchByte 0x80000001) (Config.launchByte 0x80000002)
        (Config.launchByte 0x80000003)) := rfl

/-- V-PT-3 to V-PT-7. -/
theorem test_page_range :
    pageRange 0x2000 0x1000 = [] ∧ pageRange 0xFFF 0x1000 = [0] ∧ pageRange 0xFFF 0x1001 = [0, 1] ∧
      pageRange 0 0x3001 = [0, 1, 2, 3] ∧ pageRange 0x80000800 0x80001400 = [0x80000, 0x80001] := by decide

/-- V-PMP-11 and V-PMP-12: four regions, and the two top bits of an address register lost. -/
theorem test_pmp_regions :
    pmpRegions { VRegFile.reset with
        pmpaddr0 := 0x20080000, pmpaddr1 := 0x200C0000, pmpaddr2 := 0x20100000, pmpaddr3 := 0x20100400,
        pmpcfg0 := 0x07000700 } =
      [⟨0x80000000, 0x80200000, 0⟩, ⟨0x80200000, 0x80300000, 7⟩, ⟨0x80300000, 0x80400000, 0⟩,
        ⟨0x80400000, 0x80401000, 7⟩] ∧
    pmpRegions { VRegFile.reset with pmpaddr0 := 0xC000000020080000 } = [⟨0x80000000, 0x80200000, 0⟩] := by decide

/-! ### Every statement's hypotheses can be met -/

theorem witness_EncodeOfDecodeIsTheBytes :
    decode [0x73#8, 0x00#8, 0x20#8, 0x30#8, 0xFF#8] = .ok (.mret, [0xFF#8]) := by decide

/-- A word of each CSR class and a word outside every class. -/
theorem witness_OtherWordsAreUnrecognised :
    (0x34151073#32 &&& 0x0000707F#32 = 0x00001073#32) ∧ (0x100025F3#32 &&& 0x0000707F#32 = 0x00002073#32) ∧
    ¬ (0x00100073#32 = 0x00000073#32 ∨ 0x00100073#32 = 0x10200073#32 ∨ 0x00100073#32 = 0x30200073#32 ∨
      0x00100073#32 &&& 0x0000707F#32 = 0x00001073#32 ∨ 0x00100073#32 &&& 0x0000707F#32 = 0x00002073#32) := by decide

/-- The least and the greatest fields of either class. -/
theorem witness_CsrWordsDecodeToTheirFields :
    decodeWord 0x00001073#32 = .ok (.csrrw 0#12 0#5 0#5) ∧ decodeWord 0xFFFF9FF3#32 = .ok (.csrrw 0xFFF#12 31#5 31#5) ∧
    decodeWord 0x00002073#32 = .ok (.csrrs 0#12 0#5 0#5) ∧
    decodeWord 0xFFFFAFF3#32 = .ok (.csrrs 0xFFF#12 31#5 31#5) := by decide

theorem witness_StepRunsDecodedInstruction :
    (trapAt .user 0x00000073).trapNext = true ∧ (trapAt .user 0x00000073).faulted = false ∧
    ensureShadow (trapAt .user 0x00000073).taken = .ok (trapAt .user 0x00000073) ∧
    fetch (trapAt .user 0x00000073) 0x80000000 = .ok 0x00000073#32 ∧ decodeWord 0x00000073#32 = .ok .ecall ∧
    WellFormed .ecall = true :=
  ⟨by decide, by decide, rfl, by rfl, by decide, by decide⟩

theorem witness_StepKillsOnUnrecognisedWord :
    ensureShadow (trapAt .user 0x00100073).taken = .ok (trapAt .user 0x00100073) ∧
    fetch (trapAt .user 0x00100073) 0x80000000 = .ok 0x00100073#32 ∧
    ∃ r, decodeWord 0x00100073#32 = .error r :=
  ⟨rfl, by rfl, _, rfl⟩

theorem windowPages_wf : Table.wf windowPages = true := by decide +kernel

theorem windowPages_covers : Table.Covers windowPages kwinBase kwinEnd := by decide +kernel

/-- The invariant holds of a freshly booted block, and of the block of S7c with the flag set and the shadow built. -/
theorem witness_inv (w : InstrWord) : (bootAt w).Inv := by
  refine ⟨Memory.wf_writeWord rfl _ _, windowPages_wf, ?_, ?_, fun _ => ⟨?_, ?_, ?_, ?_⟩⟩ <;>
    simp [bootAt, State.reset, LivePresent, liveTable]

theorem witness_inv_pmp : pmpState.Inv := by
  refine ⟨Memory.wf_writeWord rfl _ _, windowPages_wf, ?_, ?_, fun _ => ⟨?_, ?_, ?_, ?_⟩⟩ <;>
    simp [pmpState, bootAt, State.reset, LivePresent, liveTable, windowPages_wf, windowPages_covers]

theorem shadow_of_boot : buildShadow windowPages 0#64 = some windowPages := by decide +kernel

/-- Its three clauses: nothing mapped; a misaligned `pc`; an aligned `pc` on an unmapped page. -/
theorem witness_FirstEventOfATrap :
    (State.reset.Inv ∧ State.reset.shadowTable = none ∧ inPageRange kwinBase kwinEnd 0x80000 = true ∧
      State.reset.origTable.find 0x80000 = none) ∧
    (∃ u, ensureShadow ({ bootAt 0 with pc := 2 } : State).taken = .ok u) ∧
    (∃ u tbl, ensureShadow ({ bootAt 0 with pc := 0x1000 } : State).taken = .ok u ∧ liveTable u = some tbl ∧
      tbl.find 1 = none) := by
  have hb : ∀ pc, ensureShadow ({ bootAt 0 with pc := pc } : State).taken =
      .ok { bootAt 0 with pc := pc, shadowTable := some windowPages } := by
    intro pc
    simp [ensureShadow, bootAt, State.taken, State.reset, shadow_of_boot]
  refine ⟨⟨⟨rfl, rfl, ?_, ?_, fun _ => ⟨?_, ?_, ?_, ?_⟩⟩, rfl, by decide, rfl⟩, ⟨_, hb _⟩, _, _, hb _, rfl,
    by decide +kernel⟩ <;>
    simp [State.reset, LivePresent, liveTable]

theorem witness_HaltedBlockAcceptsNothing :
    ({ State.reset with faulted := true } : State).trapNext = true ∧
    ({ State.reset with faulted := true, inputs := [.init] } : State).inputs.head? = some .init := by decide

theorem witness_ResetAndInitInitialize :
    ({ pmpState with faulted := true, inputs := [.reset] } : State).inputs.head? = some .reset ∧
    ({ pmpState with inputs := [.init] } : State).faulted = false ∧
    ({ pmpState with inputs := [.init] } : State).inputs.head? = some .init := by decide

theorem witness_EcallFromUserEntersSupervisor : (stateAt .user 0x1000 VRegFile.reset).mode = .user := rfl

theorem witness_EcallFromSupervisorEntersMachine : (stateAt .supervisor 0 VRegFile.reset).mode = .supervisor := rfl

theorem witness_EcallAtMachineKills : State.reset.mode = .machine := rfl

theorem witness_SretInEveryMode :
    (stateAt .supervisor 0 VRegFile.reset).mode = .supervisor ∧ (stateAt .user 0 VRegFile.reset).mode ≠ .supervisor ∧
    (stateAt .machine 0 VRegFile.reset).mode ≠ .supervisor := by decide

set_option maxRecDepth 100000 in
/-- Its four clauses: User; no flag; a rebuild that succeeds; a rebuild that finds a page absent. -/
theorem witness_MretInEveryMode :
    (stateAt .user 0 VRegFile.reset).mode = .user ∧
    (State.reset.mode ≠ .user ∧ State.reset.pmpConfiguration = false) ∧
    (pmpState.mode ≠ .user ∧ pmpState.pmpConfiguration = true ∧ pmpState.shadowTable = some windowPages ∧
      (buildRestricted windowPages pmpState.guestSize (pmpRegions pmpState.vregs)).isSome = true) ∧
    buildRestricted [] pmpState.guestSize (pmpRegions pmpState.vregs) = none := by
  refine ⟨rfl, ⟨by decide, rfl⟩, ⟨by decide, rfl, rfl, by decide⟩, by decide⟩

theorem witness_CsrTableAsSpecified : (0x180#32 : CsrId) ∉ csrTable.map Csr.code := by decide

/-- Its clauses: an identifier of no register; one below and one at the minimum mode; User mode. -/
theorem witness_CsrCheckDecides :
    (∀ r : Csr, r.code ≠ 0x180#32) ∧ Csr.mstatus.code = 0x300#32 ∧
    Mode.supervisor.num < Csr.mstatus.minMode.num ∧ ¬ Mode.machine.num < Csr.mstatus.minMode.num ∧
    (stateAt .user 0 VRegFile.reset).mode = .user :=
  ⟨fun r => by cases r <;> decide, by decide, by decide, by decide, rfl⟩

/-- The three clauses of the two CSR statements: allowed, refused, unknown. -/
theorem witness_CsrrwInEveryCase :
    (Csr.pmpaddr3.code = csrIdOf 0x3B3#12 ∧ Csr.pmpaddr3.minMode.num ≤ (stateAt .machine 0 VRegFile.reset).mode.num) ∧
    (stateAt .supervisor 0 VRegFile.reset).mode.num < Csr.pmpaddr3.minMode.num ∧
    (∀ r : Csr, r.code ≠ csrIdOf 0x3B4#12) :=
  ⟨by decide, by decide, fun r => by cases r <;> decide⟩

theorem witness_CsrrsInEveryCase :
    (Csr.sscratch.code = csrIdOf 0x140#12 ∧ Csr.sscratch.minMode.num ≤ (stateAt .supervisor 0 VRegFile.reset).mode.num) ∧
    (stateAt .user 0 VRegFile.reset).mode.num < Csr.sscratch.minMode.num ∧
    (∀ r : Csr, r.code ≠ csrIdOf 0xC00#12) ∧ (11#5 : RegIdx) ≠ 0#5 ∧ (0#5 : RegIdx) = 0#5 :=
  ⟨by decide, by decide, fun r => by cases r <;> decide, by decide, rfl⟩

theorem witness_CsrWriteThenReadReturnsTheValue :
    Csr.mvendorid.code = csrIdOf 0xF11#12 ∧ Csr.mvendorid.minMode.num ≤ State.reset.mode.num ∧ (11#5 : RegIdx) ≠ 0#5 := by
  decide

theorem witness_RefusedAccessAnswersNoState :
    (stateAt .supervisor 0 VRegFile.reset).mode.num < Csr.mstatus.minMode.num := by decide

theorem witness_RegisterZeroIsHardWired :
    Csr.sscratch.code = csrIdOf 0x140#12 ∧ Csr.sscratch.minMode.num ≤ State.reset.mode.num := by decide

/-- V-CSR-11: a step that turns the flag on with the value zero. -/
theorem witness_PmpFlagSetOnlyByPmpWrites :
    ((nextOf (step (trapAt .machine 0x3B051073))).map (·.pmpConfiguration) = some true) ∧
    (trapAt .machine 0x3B051073).pmpConfiguration = false ∧ (trapAt .machine 0x3B051073).mode = .machine ∧
    (0x3B0#12 : Imm12) ∈ [0x3A0#12, 0x3B0#12, 0x3B1#12, 0x3B2#12, 0x3B3#12] := by decide

theorem witness_VendorTagIsReadAfterReset : (31#5 : RegIdx) ≠ 0#5 := by decide

theorem witness_UserModeAdmitsOnlyEcall :
    (stateAt .user 0 VRegFile.reset).mode = .user ∧ Instr.mret ≠ .ecall := by decide

theorem witness_ModeChangesAreMonotone :
    (∃ t, ecall (stateAt .supervisor 0 VRegFile.reset) = .ok t) ∧ (∃ t, sret (stateAt .supervisor 0 VRegFile.reset) = .ok t) ∧
    (∃ t, mret State.reset = .ok t) ∧ (∃ t, csrWrite 0x140#32 1#5 State.reset = .ok t) ∧
    (∃ t, csrRead 0x140#32 1#5 State.reset = .ok t) ∧
    (∃ t, exec .ecall (stateAt .supervisor 0 VRegFile.reset) = .next t ∧ t.mode = .machine) :=
  ⟨⟨_, rfl⟩, ⟨_, rfl⟩, ⟨_, rfl⟩, ⟨_, rfl⟩, ⟨_, rfl⟩, _, rfl, rfl⟩

theorem witness_ModeChangesOnlyByTheListedEvents :
    ∃ t, step (trapAt .user 0x00000073) = .next t ∧ t.mode ≠ (trapAt .user 0x00000073).mode :=
  ⟨_, rfl, by decide⟩

theorem witness_UserLearnsNoMachineRegister :
    (stateAt .user 0 VRegFile.reset).mode = .user ∧
    ∀ r : Csr, r.minMode = .supervisor → (VRegFile.reset.set .mscratch 0x55).get r = VRegFile.reset.get r :=
  ⟨rfl, fun r h => by cases r <;> first | rfl | cases h⟩

/-- The four transitions of S5, with nothing in between. -/
theorem witness_EscalationRoundTrip :
    ∃ a b c d, exec .ecall (stateAt .user 0x1000 VRegFile.reset) = .next a ∧ exec .ecall a = .next b ∧
      exec .mret b = .next c ∧ c.faulted = false ∧ exec .sret c = .next d ∧ c.vregs.sstatus.getLsbD 8 = a.vregs.sstatus.getLsbD 8 :=
  ⟨_, _, _, _, rfl, rfl, rfl, rfl, rfl, rfl⟩

theorem witness_GeneralRegisterFrame :
    (∃ t, exec (.csrrs 0x140#12 0#5 11#5) State.reset = .next t) ∧
    ∀ csr rs1, Instr.csrrs 0x140#12 0#5 11#5 ≠ .csrrs csr rs1 10#5 :=
  ⟨⟨_, rfl⟩, fun _ _ h => by injection h with _ _ h; exact absurd h (by decide)⟩

theorem witness_InstructionsWriteNoMemory :
    ∃ t, exec .mret ({ trapAt .machine 0x30200073 with killed := true } : State) = .next t := ⟨_, rfl⟩

theorem witness_MachineRegistersAreGuarded :
    (trapAt .supervisor 0x14051073).trapNext = true ∧ (trapAt .supervisor 0x14051073).mode ≠ .machine ∧
    ∃ t, step (trapAt .supervisor 0x14051073) = .next t ∧ t.killed = false :=
  ⟨by decide, by decide, _, rfl, rfl⟩

theorem witness_KilledIsNeverClearedByTheBlock :
    (∃ t, step ({ trapAt .supervisor 0x14051073 with killed := true } : State) = .next t) ∧
    ({ trapAt .supervisor 0x14051073 with killed := true } : State).inputs.head? ≠ some .freshProcess :=
  ⟨⟨_, rfl⟩, by decide⟩

/-- Its clauses: another instruction; a shadow; a rebuild that finds a page absent and one that succeeds; no shadow. -/
theorem witness_OnlyTheRebuildHaltsTheBlock :
    Instr.csrrw 0#12 0#5 0#5 ≠ .mret ∧ pmpState.shadowTable ≠ none ∧
    (∃ t, exec .mret { pmpState with shadowTable := some [] } = .next t ∧ t.faulted = true) ∧
    (∃ t, exec .mret State.reset = .next t ∧ t.faulted = false) ∧
    (pmpState.mode ≠ .user ∧ pmpState.pmpConfiguration = true ∧
      ({ pmpState with shadowTable := none } : State).shadowTable = none) :=
  ⟨by decide, by simp [pmpState], ⟨_, rfl, rfl⟩, ⟨_, rfl, rfl⟩, by decide, rfl, rfl⟩

theorem witness_PageRangeListsTheOverlappedPages : (0x1000 : Nat) ≤ 0x2000 := by decide

theorem witness_DuplicateRegionIsTheLoop :
    Table.wf [(1, ⟨1, 0⟩), (2, ⟨2, 0⟩)] = true ∧ Table.wf [(0, ⟨0, 0⟩)] = true := by decide

theorem witness_DuplicateRegionIsIdempotent :
    Table.duplicateRegion [(1, ⟨1, 0⟩), (2, ⟨2, 0⟩)] [(0, ⟨0, 0⟩)] 0x1000 0x2001 =
      some [(0, ⟨0, 0⟩), (1, ⟨1, 0⟩), (2, ⟨2, 0⟩)] := by decide

/-- Both clauses at the last lane: all four registers set, and the third one zero (V-PMP-11, V-PMP-9). -/
theorem witness_PmpRegionsScanTheRegisters :
    (∀ j : Fin 4, j ≤ 3 → (![1, 1, 1, 1] : Fin 4 → Word) j ≠ 0) ∧
    (∃ j : Fin 4, j ≤ 3 ∧ (![1, 1, 0, 1] : Fin 4 → Word) j = 0) := by decide

theorem witness_FirstTrapBuildsTheShadow :
    (bootAt 0x34151073).origTable.wf = true ∧ (bootAt 0x34151073).shadowTable = none ∧
    ∃ u, ensureShadow (bootAt 0x34151073) = .ok u := by
  refine ⟨windowPages_wf, rfl, { bootAt 0x34151073 with shadowTable := some windowPages }, ?_⟩
  simp [ensureShadow, bootAt, State.reset, shadow_of_boot]

theorem witness_ShadowIsNeverModified :
    (∃ t, step (trapAt .supervisor 0x14051073) = .next t) ∧ (trapAt .supervisor 0x14051073).shadowTable = some [] :=
  ⟨⟨_, rfl⟩, rfl⟩

set_option maxRecDepth 100000 in
theorem witness_RestrictedTableChangesOnlyAtMret :
    (nextOf (step pmpState)).map (fun t => t.restrictedTable.isSome) = some true ∧
    pmpState.restrictedTable = none := by decide

theorem witness_LiveTableFollowsTheEvents : ∃ t, exec .sret (stateAt .supervisor 0 VRegFile.reset) = .next t := ⟨_, rfl⟩

set_option maxRecDepth 100000 in
/-- The hypotheses of the filter statement, an address of a pruned region, and a page that no region prunes. -/
theorem witness_PmpFilterIsExact :
    pmpState.Inv ∧ pmpState.mode ≠ .user ∧ pmpState.pmpConfiguration = true ∧
    (∃ t, exec .mret pmpState = .next t ∧ t.faulted = false) ∧
    ((⟨0x80000000, 0x80200000, 0⟩ : PmpRegion) ∈ pmpRegions pmpState.vregs ∧ (0x80000000 : Word) ≤ 0x801FFFFF ∧
      (0x801FFFFF : Word) < 0x80200000) ∧
    (∀ p ∈ pmpRegions pmpState.vregs, p.perm ≠ 7#3 →
      ∀ b : Nat, p.start.toNat ≤ b → b < p.stop.toNat → b / 4096 ≠ (0x80200000 : Word).toNat / 4096) ∧
    (pmpState.guestSize.toNat ≤ 0x80400 * 4096 ∧ ¬ ((0x80000 : Nat) ≤ 0x80400 ∧ (0x80400 : Nat) < 0x80400)) := by
  have hx : ∃ t, exec .mret pmpState = .next t ∧ t.faulted = false := by
    obtain ⟨t, ht⟩ := exists_next (o := exec .mret pmpState) (by decide)
    exact ⟨t, ht, by simpa [ht, nextOf] using show (nextOf (exec .mret pmpState)).map (·.faulted) = some false by decide⟩
  refine ⟨witness_inv_pmp, by decide, rfl, hx, by decide, ?_, by decide⟩
  have h : pmpRegions pmpState.vregs = [⟨0x80000000, 0x80200000, 0⟩, ⟨0x80200000, 0x80300000, 7⟩] := by decide
  rw [h]
  intro p hp hperm b h1 h2
  rcases List.mem_cons.1 hp with rfl | hp
  · change b < 0x80200000 at h2
    change b / 4096 ≠ 0x80200
    omega
  · rcases List.mem_cons.1 hp with rfl | hp
    · exact absurd rfl hperm
    · cases hp

set_option maxRecDepth 100000 in
/-- A step that builds a restricted table, from a state that meets the invariant. -/
theorem witness_StepKeepsTheInvariant : pmpState.Inv ∧ ∃ t, step pmpState = .next t :=
  ⟨witness_inv_pmp, exists_next (by decide)⟩

theorem witness_BootReadyTrapCompletes :
    (bootAt 0x34151073).Inv ∧ (bootAt 0x34151073).BootReady ∧ (bootAt 0x34151073).shadowTable = none ∧
    (bootAt 0x34151073).faulted = false ∧ (bootAt 0x34151073).trapNext = true := by
  exact ⟨witness_inv _, ⟨by decide, windowPages_covers, rfl, by decide, by decide⟩, rfl, rfl, rfl⟩

/-- Every input of the statement, on the reset state, whose memory and table are canonical. -/
theorem witness_EnvironmentInputsTouchOnlyTheirPart :
    (∀ i : HostInput, ({ State.reset with inputs := [i] } : State).inputs = i :: []) ∧
    State.reset.mem.wf = true ∧ State.reset.origTable.wf = true := ⟨fun _ => rfl, by decide, by decide⟩

/-- Its clauses: a misaligned address, an unmapped page, a mapped one, no live table, a written byte, an unwritten one. -/
theorem witness_FetchReadsTheLittleEndianWord :
    (0x80000003 : Word).toNat % 4 ≠ 0 ∧
    ((0x80001000 : Word).toNat % 4 = 0 ∧ liveTable (trapAt .user 0x73) = some [(0x80000, ⟨0x80000, 0⟩)] ∧
      Table.find [(0x80000, ⟨0x80000, 0⟩)] ((0x80001000 : Word).toNat / 4096) = none) ∧
    ((0x80000FFC : Word).toNat % 4 = 0 ∧
      Table.find [(0x80000, ⟨0x80000, 0⟩)] ((0x80000FFC : Word).toNat / 4096) = some ⟨0x80000, 0⟩) ∧
    ((0x80000000 : Word).toNat % 4 = 0 ∧ liveTable { State.reset with liveSel := .shadow } = none) ∧
    (trapAt .user 0x73).mem.read 0x80000000 = some 0x73#8 ∧ (trapAt .user 0x73).mem.read 0x80000004 = none :=
  ⟨by decide, ⟨by decide, rfl, by decide⟩, ⟨by decide, by decide⟩, ⟨by decide, rfl⟩, by decide, by decide⟩

/-- Its clauses: the highest page's base, two equal entries, a translation. -/
theorem witness_EntriesArePageAligned :
    (0xFFFFFFFFFFFFF000 : Word).toNat % 4096 = 0 ∧
    ((⟨0xFFFFFFFFFFFFF, 7⟩ : Pte).pa = 0xFFFFFFFFFFFFF000 ∧ (⟨0xFFFFFFFFFFFFF, 7⟩ : Pte).flags = 7) ∧
    translateAddr (trapAt .user 0x73) 0x80000FFF = .ok 0x80000FFF := ⟨by decide, ⟨by decide, rfl⟩, rfl⟩

/-- Its clauses: a step that sets the flag, and a step taken with it set. -/
theorem witness_InternalFaultHaltsTheBlock :
    (∃ t, step State.reset = .next t ∧ State.reset.faulted = false ∧ t.faulted = true) ∧
    (∃ t, step { State.reset with faulted := true, inputs := [.setPc 4] } = .next t) ∧
    ({ State.reset with faulted := true, inputs := [.setPc 4] } : State).inputs.head? ≠ some .reset :=
  ⟨⟨_, rfl, rfl, rfl⟩, ⟨_, rfl⟩, by decide⟩

end Sys2Proof.Tests
end

section
/-! What each input of the environment does to the state (log 2), and that it touches nothing else. -/

namespace Sys2Proof.Machine

/-- `step_cons` with the inputs that are left written out. -/
theorem step_of_inputs {s : State} {i : HostInput} {rest : List HostInput} (h : s.inputs = i :: rest) :
    step s = takeInput i { s with inputs := rest } := by
  rw [step_cons h, State.taken, h, List.tail_cons]

/-- A write to a general register changes the general registers alone (R28, R29). -/
theorem writeX_frame (s : State) (r : RegIdx) (v : Word) : s.writeX r v = { s with x := (s.writeX r v).x } := by
  by_cases hr : r = 0#5 <;> simp [State.writeX, hr]

/-- Settles O50: each input is one update of one field of the state; what a register, byte or entry then reads as is the
read-after-write lemma of that field. -/
theorem environmentInputsTouchOnlyTheirPart : Obligations.EnvironmentInputsTouchOnlyTheirPart := by
  intro s rest
  refine ⟨?setReg, ?setPc, ?setByte, ?mapPage, ?unmapPage, ?setGuestSize, ?freshProcess⟩
  case setReg =>
    intro r v h
    exact ⟨_, step_of_inputs h, writeX_frame _ r v, readX_writeX _ r v⟩
  case setPc => exact fun _ h => step_of_inputs h
  case setByte =>
    intro a b h hm
    exact ⟨_, step_of_inputs h, rfl, fun k => (Memory.read_write hm _ b k).trans (if_congr eq_comm rfl rfl)⟩
  case mapPage =>
    intro vpn e h ht
    exact ⟨_, step_of_inputs h, rfl, fun k => (Table.find_put ht _ e k).trans (if_congr eq_comm rfl rfl)⟩
  case unmapPage =>
    intro vpn h
    exact ⟨_, step_of_inputs h, rfl, fun k => (Table.find_drop _ _ k).trans (if_congr eq_comm rfl rfl)⟩
  case setGuestSize => exact fun _ h => step_of_inputs h
  case freshProcess => exact step_of_inputs

end Sys2Proof.Machine
end

section
/-! What an instruction and a `TRAP` that answer a next state have done, in one frame (spec 41_decode_dispatch.md R110 to
R113): the block was halted, the guest was killed, or the instruction has completed. The statements about state read
their part of it off. -/

namespace Sys2Proof.Machine

/-! ### The frame of a completed instruction -/

/-- The restricted table has been rebuilt from the shadow and installed (R131, R157). -/
structure State.RebuiltFrom (s t : State) : Prop where
  flag : s.pmpConfiguration = true
  live : t.liveSel = .restricted
  built : ∃ sh tbl, s.shadowTable = some sh ∧ buildRestricted sh s.guestSize (pmpRegions s.vregs) = some tbl ∧
    t.restrictedTable = some tbl

/-- What instruction `i` leaves when it neither kills the guest nor halts the block: nothing outside the block changes but
a CSRRS's destination, the shadow stays, the flag is not cleared, and the restricted table changes at MRET alone. -/
structure State.CompletedFrom (i : Instr) (s t : State) : Prop where
  registers : ∀ j : RegIdx, (∀ csr rs1, i ≠ .csrrs csr rs1 j) → t.readX j = s.readX j
  mem : t.mem = s.mem
  origTable : t.origTable = s.origTable
  guestSize : t.guestSize = s.guestSize
  killed : t.killed = s.killed
  faulted : t.faulted = s.faulted
  inputs : t.inputs = s.inputs
  shadow : t.shadowTable = s.shadowTable
  flag : s.pmpConfiguration = true → t.pmpConfiguration = true
  restricted : (t.restrictedTable = s.restrictedTable ∧ (t.liveSel = s.liveSel ∨ t.liveSel = .shadow)) ∨
    (i = .mret ∧ s.RebuiltFrom t)

/-- A CSRRW writes a virtual register, the flag and `pc` (R141, R143). -/
theorem csrWritten_completedFrom (csr : Imm12) (rs1 rd : RegIdx) (r : Csr) (s : State) :
    s.CompletedFrom (.csrrw csr rs1 rd) (csrWritten r rs1 s) := by
  constructor <;> simp +contextual [csrWritten, State.readX]

/-- A CSRRS writes its destination and `pc` (R142). -/
theorem csrWasRead_completedFrom (csr : Imm12) (rs1 rd : RegIdx) (r : Csr) (s : State) :
    s.CompletedFrom (.csrrs csr rs1 rd) (csrWasRead r rd s) := by
  constructor
  case registers =>
    intro j hj
    have hne : j ≠ rd := fun h => hj csr rs1 (h ▸ rfl)
    exact (readX_writeX s rd _ j).trans (if_neg fun h => hne h.1)
  all_goals simp [csrWasRead]

/-- A privilege transition within the block's own registers, `pc`, the live selector and the restricted handle. -/
theorem completedFrom_of_transition {i : Instr} {s t : State}
    (h : t = { s with
      vregs := t.vregs, mode := t.mode, pc := t.pc, liveSel := t.liveSel, restrictedTable := t.restrictedTable,
      tlbFlushes := t.tlbFlushes })
    (hr : (t.restrictedTable = s.restrictedTable ∧ (t.liveSel = s.liveSel ∨ t.liveSel = .shadow)) ∨
      (i = .mret ∧ s.RebuiltFrom t)) :
    s.CompletedFrom i t where
  registers j _ := (congrArg (State.readX · j) h :)
  mem := (congrArg State.mem h :)
  origTable := (congrArg State.origTable h :)
  guestSize := (congrArg State.guestSize h :)
  killed := (congrArg State.killed h :)
  faulted := (congrArg State.faulted h :)
  inputs := (congrArg State.inputs h :)
  shadow := (congrArg State.shadowTable h :)
  flag hf := (congrArg State.pmpConfiguration h :).trans hf
  restricted := hr

/-- Everything an instruction that answers a next state can have done: killed the guest, halted the block, or completed
within its frame. -/
theorem exec_outcome {i : Instr} {s t : State} (h : exec i s = .next t) :
    (∃ v, t = violationSequence v s) ∨ (∃ r, t = haltSequence r s) ∨ s.CompletedFrom i t := by
  rcases exec_next h with ⟨v, hv⟩ | ⟨-, -, -, hr, -⟩ | hrest
  · exact .inl ⟨v, hv⟩
  · exact .inr (.inl ⟨_, hr⟩)
  refine .inr (.inr ?_)
  rcases hrest with ⟨-, -, rfl⟩ | ⟨-, -, rfl⟩ | ⟨-, -, rfl⟩ | ⟨-, -, -, rfl⟩ | ⟨rfl, -, hf, sh, tbl, hs, hb, rfl⟩ |
    ⟨csr, rs1, rd, r, rfl, -, -, rfl⟩ | ⟨csr, rs1, rd, r, rfl, -, -, rfl⟩
  · exact completedFrom_of_transition rfl (.inl ⟨rfl, .inl rfl⟩)
  · exact completedFrom_of_transition rfl (.inl ⟨rfl, .inr rfl⟩)
  · exact completedFrom_of_transition rfl (.inl ⟨rfl, .inl rfl⟩)
  · exact completedFrom_of_transition rfl (.inl ⟨rfl, .inl rfl⟩)
  · exact completedFrom_of_transition rfl (.inr ⟨rfl, hf, rfl, sh, tbl, hs, hb, rfl⟩)
  · exact csrWritten_completedFrom csr rs1 rd r s
  · exact csrWasRead_completedFrom csr rs1 rd r s

/-! ### The same for a `TRAP` -/

/-- An internal fault does not see whether the shadow was just built (R172). -/
theorem haltSequence_of_ensureShadow {s u : State} (h : ensureShadow s = .ok u) (r : InternalFault) :
    haltSequence r u = haltSequence r s := by
  rw [ensureShadow_eq h]; rfl

/-- The violation sequence discards the shadow, just built or not (R10, R171). -/
theorem violationSequence_of_ensureShadow {s u : State} (h : ensureShadow s = .ok u) (v : Violation) :
    violationSequence v u = violationSequence v s := by
  rw [ensureShadow_eq h]; rfl

/-- A shadow that is present is the one the transaction runs with (R111). -/
theorem ensureShadow_of_present {s u : State} {sh : Table} (hs : s.shadowTable = some sh)
    (h : ensureShadow s = .ok u) : u = s := by
  rw [ensureShadow, hs] at h
  cases h; rfl

/-- Everything a `TRAP` that answers a next state can have done. -/
theorem trapTransaction_outcome {s t : State} (h : trapTransaction s = .next t) :
    (∃ v, t = violationSequence v s) ∨ (∃ r, t = haltSequence r s) ∨
      ∃ u w i, ensureShadow s = .ok u ∧ fetch u u.pc = .ok w ∧ decodeWord w = .ok i ∧ u.CompletedFrom i t := by
  rcases trapTransaction_next h with ⟨-, r, -, rfl⟩ | ⟨u, hu, ⟨r, -, rfl⟩ | ⟨w, hw, ⟨i, hi, he⟩ | ⟨-, v, -, rfl⟩⟩⟩
  · exact .inr (.inl ⟨r, rfl⟩)
  · exact .inr (.inl ⟨r, haltSequence_of_ensureShadow hu r⟩)
  · rcases exec_outcome he with ⟨v, rfl⟩ | ⟨r, rfl⟩ | hc
    · exact .inl ⟨v, violationSequence_of_ensureShadow hu v⟩
    · exact .inr (.inl ⟨r, haltSequence_of_ensureShadow hu r⟩)
    · exact .inr (.inr ⟨u, w, i, hu, hw, hi, hc⟩)
  · exact .inl ⟨v, violationSequence_of_ensureShadow hu v⟩

end Sys2Proof.Machine
end

section
/-! The invariant holds after reset and every step keeps it (R26, R27, R48, R60, R61, R157, R172). -/

namespace Sys2Proof.Machine

/-- The live handle is present when the selected one of the two optional handles is (R27, R31). -/
theorem livePresent_iff (s : State) :
    LivePresent s ↔ (s.liveSel = .shadow → s.shadowTable ≠ none) ∧ (s.liveSel = .restricted → s.restrictedTable ≠ none) := by
  rw [LivePresent, liveTable]
  cases s.liveSel <;> simp

/-- A halted block meets the invariant when memory and its tables are canonical: nothing else is asked of it (R172). -/
theorem inv_of_faulted {s : State} (hm : s.mem.wf = true) (ho : s.origTable.wf = true)
    (hs : ∀ t, s.shadowTable = some t → t.wf = true) (hr : ∀ t, s.restrictedTable = some t → t.wf = true)
    (hf : s.faulted = true) : s.Inv :=
  ⟨hm, ho, hs, hr, fun h => absurd (hf.symm.trans h) (by decide)⟩

/-- An initialised context meets the invariant beside canonical memory and a canonical original table (R48, R100). -/
theorem inv_of_contextReset {s : State} (hm : s.mem.wf = true) (ho : s.origTable.wf = true) (hc : s.ContextReset) :
    s.Inv := by
  obtain ⟨-, -, -, hsh, hre, hl⟩ := hc
  exact ⟨hm, ho, by simp [hsh], by simp [hre], fun _ => ⟨by simp [livePresent_iff, hl], by simp [hsh], by simp [hre],
    by simp [hre]⟩⟩

/-- A free table left by an internal fault is canonical, whether drawn for the shadow or the restricted handle (R172). -/
theorem wf_of_map_freeTable {o : Option (List (BitVec 52 × BitVec 52 × Nat))} {t : Table}
    (h : o.map freeTable = some t) : t.wf = true := by
  obtain ⟨entries, -, rfl⟩ := Option.map_eq_some_iff.1 h
  exact freeTable_wf entries

theorem inv_haltSequence {s : State} (h : s.Inv) (r : InternalFault) : (haltSequence r s).Inv :=
  inv_of_faulted h.memWf h.origWf (fun _ => wf_of_map_freeTable) (fun _ => wf_of_map_freeTable) rfl

theorem inv_violationSequence {s : State} (h : s.Inv) (v : Violation) : (violationSequence v s).Inv :=
  inv_of_contextReset h.memWf h.origWf (initContext_contextReset _)

/-- Two states with the same two tables: the invariant carries over when memory and the original table stay canonical, the
flag is not cleared, and the selected handle is there. -/
theorem State.Inv.of_sameTables {s t : State} (h : s.Inv) (hm : t.mem.wf = true) (ho : t.origTable.wf = true)
    (hsh : t.shadowTable = s.shadowTable) (hre : t.restrictedTable = s.restrictedTable)
    (hfl : s.pmpConfiguration = true → t.pmpConfiguration = true) (hfa : t.faulted = s.faulted)
    (hl : LivePresent s → LivePresent t) : t.Inv where
  memWf := hm
  origWf := ho
  shadowWf := hsh ▸ h.shadowWf
  restrictedWf := hre ▸ h.restrictedWf
  running hf := by
    obtain ⟨live, window, flag, within⟩ := h.running (hfa ▸ hf)
    exact ⟨hl live, hsh ▸ window, fun hn => hfl (flag (hre ▸ hn)), by rw [hsh, hre]; exact within⟩

/-- A shadow the construction answers maps the kernel window (R153). -/
theorem covers_buildShadow {src sh : Table} (hs : src.wf = true) {g : Word} (h : buildShadow src g = some sh) :
    sh.Covers kwinBase kwinEnd := by
  have hmap : ∀ v, inBothRanges g v → src.find v ≠ none :=
    (Table.duplicateBoth_isSome hs g).1 (by rw [← buildShadow, h]; rfl)
  have hwin : ∀ v, inPageRange kwinBase kwinEnd v = true → sh.find v ≠ none := fun v hv => by
    rw [Table.find_duplicateBoth hs h, if_pos (.inr hv)]
    exact hmap v (.inr hv)
  have := (Table.duplicateRegion_isSome (Table.wf_duplicateBoth hs h) [] kwinBase kwinEnd).2 hwin
  rw [Table.duplicateRegion, Option.isSome_map, Option.isSome_iff_ne_none] at this
  exact this

/-- The lazy construction keeps the invariant: before it there was no shadow, so no restricted table either (R26, R111). -/
theorem inv_ensureShadow {s u : State} (hi : s.Inv) (h : ensureShadow s = .ok u) : u.Inv := by
  rcases ensureShadow_cases s with ⟨-, -, e⟩ | ⟨sh, hs, hb, e⟩ | ⟨-, -, e⟩ <;> rw [e] at h <;> cases h
  · exact hi
  · refine ⟨hi.memWf, hi.origWf, ?_, hi.restrictedWf, fun hf => ?_⟩
    · rintro _ ⟨⟩
      exact Table.wf_duplicateBoth hi.origWf hb
    · obtain ⟨live, -, flag, within⟩ := hi.running hf
      refine ⟨?_, ?_, flag, fun t ht => ?_⟩
      · exact (livePresent_iff _).2 ⟨fun _ => Option.some_ne_none sh, ((livePresent_iff s).1 live).2⟩
      · rintro _ ⟨⟩
        exact covers_buildShadow hi.origWf hb
      · obtain ⟨sh', hsh', -⟩ := within t ht
        exact absurd (hs.symm.trans hsh') (Option.some_ne_none sh').symm

/-- The restricted table holds none but the shadow's entries (R157). -/
theorem within_buildRestricted {sh t : Table} (hs : sh.wf = true) {g : Word} {rs : List PmpRegion}
    (h : buildRestricted sh g rs = some t) : sh.Within t := by
  rintro ⟨v, e⟩ hc
  have he := (Table.find_eq_some_iff (wf_buildRestricted hs h) v e).2 hc
  rw [find_buildRestricted hs h] at he
  split at he
  · cases he
  · split at he
    · exact he
    · cases he

/-- A completed instruction keeps the invariant where the shadow is present, as it is in every `TRAP` (R111). -/
theorem inv_of_completedFrom {i : Instr} {s t : State} (h : s.Inv) (hp : s.shadowTable ≠ none)
    (hc : s.CompletedFrom i t) : t.Inv := by
  have hm : t.mem.wf = true := hc.mem ▸ h.memWf
  have ho : t.origTable.wf = true := hc.origTable ▸ h.origWf
  rcases hc.restricted with ⟨hre, hl⟩ | ⟨-, hflag, hl, sh, tbl, hs, hb, htbl⟩
  · refine h.of_sameTables hm ho hc.shadow hre hc.flag hc.faulted fun live => ?_
    rw [livePresent_iff] at live ⊢
    rw [hc.shadow, hre]
    rcases hl with hl | hl
    · rwa [hl]
    · exact ⟨fun _ => hp, by simp [hl]⟩
  · have hshWf := h.shadowWf sh hs
    have hsh : t.shadowTable = some sh := hc.shadow.trans hs
    refine ⟨hm, ho, hc.shadow ▸ h.shadowWf, ?_, fun hf => ⟨?_, ?_, fun _ => hc.flag hflag, ?_⟩⟩
    · rw [htbl]
      rintro _ ⟨⟩
      exact wf_buildRestricted hshWf hb
    · simp [livePresent_iff, hl, htbl]
    · rw [hc.shadow]
      exact (h.running (hc.faulted ▸ hf)).shadowWindow
    · rw [htbl]
      rintro _ ⟨⟩
      exact ⟨sh, hsh, within_buildRestricted hshWf hb⟩

theorem inv_trapTransaction {s t : State} (hi : s.Inv) (h : trapTransaction s = .next t) : t.Inv := by
  rcases trapTransaction_outcome h with ⟨v, rfl⟩ | ⟨r, rfl⟩ | ⟨u, -, i, hu, -, -, hc⟩
  · exact inv_violationSequence hi v
  · exact inv_haltSequence hi r
  · exact inv_of_completedFrom (inv_ensureShadow hi hu) (ensureShadow_present hu) hc

/-- A change by the environment leaves the context, so it keeps the invariant where it keeps memory and the original table
canonical. -/
theorem State.SameContext.inv {s t : State} (hc : s.SameContext t) (h : s.Inv) (hm : t.mem.wf = true)
    (ho : t.origTable.wf = true) : t.Inv := by
  refine h.of_sameTables hm ho hc.shadow hc.restricted (fun hf => hc.flag.trans hf) hc.faulted fun live => ?_
  rw [livePresent_iff, hc.live, hc.shadow, hc.restricted]
  exact (livePresent_iff s).1 live

/-- Taking an input off the list leaves the invariant, which does not speak of the inputs. -/
theorem State.Inv.taken {s : State} (h : s.Inv) : s.taken.Inv :=
  ⟨h.memWf, h.origWf, h.shadowWf, h.restrictedWf, fun hf =>
    ⟨(h.running hf).livePresent, (h.running hf).shadowWindow, (h.running hf).restrictedFlag,
      (h.running hf).restrictedWithin⟩⟩

/-- Settles O48: by what a step can have done. A `TRAP` kills, halts or completes one instruction beside a present shadow;
`INIT` and reset initialise the context; the environment changes memory or the original table by one canonical update. -/
theorem stepKeepsTheInvariant : Obligations.StepKeepsTheInvariant := by
  intro s t hi h
  rcases step_next h with ⟨-, -, ht⟩ | ⟨-, -, -, rfl⟩ | ⟨-, -, rfl⟩ | ⟨-, hc, -, henv⟩
  · exact inv_trapTransaction hi.taken ht
  · exact inv_of_contextReset hi.memWf hi.origWf (initContext_contextReset _)
  · exact inv_of_contextReset hi.memWf hi.origWf (initContext_contextReset _)
  · rcases henv with ⟨hm, ho⟩ | ⟨a, b, hm, ho⟩ | ⟨vpn, e, hm, ho⟩ | ⟨vpn, hm, ho⟩
    · exact hc.inv hi (hm ▸ hi.memWf) (ho ▸ hi.origWf)
    · exact hc.inv hi (hm ▸ Memory.wf_write hi.memWf a.isLt b) (ho ▸ hi.origWf)
    · exact hc.inv hi (hm ▸ hi.memWf) (ho ▸ Table.wf_put hi.origWf vpn.isLt e)
    · exact hc.inv hi (hm ▸ hi.memWf) (ho ▸ Table.wf_drop hi.origWf _)

/-- The context of `State.reset` is the one `initContext` leaves (R48, R100). -/
theorem reset_contextReset : State.reset.ContextReset :=
  ⟨(initContext_contextReset State.reset).registers, rfl, rfl, rfl, rfl, rfl⟩

/-- Settles O47: an initialised context beside empty memory and an empty original table. -/
theorem resetMeetsTheInvariant : Obligations.ResetMeetsTheInvariant :=
  inv_of_contextReset rfl rfl reset_contextReset

end Sys2Proof.Machine
end

section
/-! What instructions and steps leave of the state (spec 10_state.md R25 to R34; 60_exceptions.md R171, R172), read off
the frame of a completed instruction. -/

namespace Sys2Proof.Machine

/-- Settles O32: a kill and a halt keep every general register, and so does every completed instruction but a CSRRS into
it. -/
theorem generalRegisterFrame : Obligations.GeneralRegisterFrame := by
  intro i s t h j hj
  rcases exec_outcome h with ⟨v, rfl⟩ | ⟨r, rfl⟩ | hc
  · rfl
  · rfl
  · exact hc.registers j hj

/-- Settles O33: no outcome of an instruction writes memory, the host's table and size or the inputs; only a halt sets
`faulted`, and no outcome clears `killed`. -/
theorem instructionsWriteNoMemory : Obligations.InstructionsWriteNoMemory := by
  intro i s t h
  rcases exec_outcome h with ⟨v, rfl⟩ | ⟨r, rfl⟩ | hc
  · exact ⟨fun _ => ⟨rfl, rfl⟩, rfl, rfl, .inl rfl, rfl, fun _ => rfl⟩
  · exact ⟨fun _ => ⟨rfl, rfl⟩, rfl, rfl, .inr (haltSequence_haltedFrom r s), rfl, id⟩
  · exact ⟨fun _ => by simp [hc.mem], hc.origTable, hc.guestSize, .inl hc.faulted, hc.inputs, hc.killed.trans⟩

/-- Settles O35: a `TRAP` sets `killed` or leaves it; reset, `INIT` and the environment, but for a fresh process, leave
it. -/
theorem killedIsNeverClearedByTheBlock : Obligations.KilledIsNeverClearedByTheBlock := by
  intro s t h hk hfresh
  rcases step_next h with ⟨-, -, ht⟩ | ⟨-, -, -, rfl⟩ | ⟨-, -, rfl⟩ | ⟨-, -, hkill, -⟩
  · rcases trapTransaction_outcome ht with ⟨v, rfl⟩ | ⟨r, rfl⟩ | ⟨u, -, i, hu, -, -, hc⟩
    · rfl
    · exact hk
    · rw [hc.killed, ensureShadow_eq hu]
      exact hk
  · exact hk
  · exact hk
  · exact (hkill.resolve_left hfresh).trans hk

/-- The two duplicated ranges in numbers: the pages of the bytes below the guest size, and the kernel window's pages
0x80000 to 0x803FF (R71, R153). -/
theorem inBothRanges_iff (g : Word) (v : Nat) :
    inBothRanges g v ↔ (∃ b, b < g.toNat ∧ b / 4096 = v) ∨ (0x80000 ≤ v ∧ v < 0x80400) := by
  rw [inBothRanges, inPageRange_iff, inPageRange_iff]
  simp only [pageSize, kwinBase, kwinEnd]
  constructor
  · rintro (⟨-, -, h⟩ | h)
    · exact .inl ⟨v * 4096, h, by omega⟩
    · exact .inr (by omega)
  · rintro (⟨b, hb, rfl⟩ | h)
    · exact .inl (by omega)
    · exact .inr (by omega)

/-- Settles O42: step 1 writes the shadow alone, the shadow maps the two ranges, and an instruction that neither kills nor
halts keeps it. -/
theorem firstTrapBuildsTheShadow : Obligations.FirstTrapBuildsTheShadow := by
  intro s u ho hn h
  refine ⟨ensureShadow_eq h, ?_, fun i t he => ?_⟩
  · rcases ensureShadow_cases s with ⟨sh, hs, -⟩ | ⟨sh, -, hb, e⟩ | ⟨-, -, e⟩
    · exact absurd (hn.symm.trans hs) (Option.some_ne_none sh).symm
    · rw [e] at h
      cases h
      refine ⟨sh, rfl, fun v => ?_⟩
      rw [Table.find_duplicateBoth ho hb]
      exact if_congr (inBothRanges_iff s.guestSize v) rfl rfl
    · rw [e] at h
      cases h
  · rcases exec_outcome he with ⟨v, rfl⟩ | ⟨r, rfl⟩ | hc
    · exact .inr (.inl (violationSequence_killedFrom v u))
    · exact .inr (.inr (haltSequence_haltedFrom r u))
    · exact .inl hc.shadow

/-- Settles O43: step 1 keeps a shadow that is present and so does a completed instruction; a kill, an `INIT` and a reset
reset the context. -/
theorem shadowIsNeverModified : Obligations.ShadowIsNeverModified := by
  intro s t sh h hs
  rcases step_next h with ⟨-, -, ht⟩ | ⟨-, -, -, rfl⟩ | ⟨-, -, rfl⟩ | ⟨-, hc, -, -⟩
  · rcases trapTransaction_outcome ht with ⟨v, rfl⟩ | ⟨r, rfl⟩ | ⟨u, -, i, hu, -, -, hc⟩
    · exact .inr (.inl (initContext_contextReset _))
    · exact .inr (.inr (haltSequence_haltedFrom r _))
    · rw [ensureShadow_of_present (s := s.taken) hs hu] at hc
      exact .inl (hc.shadow.trans hs)
  · exact .inr (.inl (initContext_contextReset _))
  · exact .inr (.inl (initContext_contextReset _))
  · exact .inl (hc.shadow.trans hs)

/-- Settles O44: a completed instruction changes the restricted table at MRET alone, where it rebuilds and installs it;
step 1 and the environment leave it. -/
theorem restrictedTableChangesOnlyAtMret : Obligations.RestrictedTableChangesOnlyAtMret := by
  intro s t h hne
  rcases step_next h with ⟨-, -, ht⟩ | ⟨-, -, -, rfl⟩ | ⟨-, -, rfl⟩ | ⟨-, hc, -, -⟩
  · rcases trapTransaction_outcome ht with ⟨v, rfl⟩ | ⟨r, rfl⟩ | ⟨u, w, i, hu, hw, hi, hc⟩
    · exact .inl (initContext_contextReset _)
    · exact .inr (.inl (haltSequence_haltedFrom r _))
    · have hus := ensureShadow_eq hu
      rcases hc.restricted with ⟨hre, -⟩ | ⟨rfl, hb⟩
      · exact absurd (hre.trans (congrArg State.restrictedTable hus)) hne
      · exact .inr (.inr ⟨(congrArg State.pmpConfiguration hus).symm.trans hb.flag, hb.live, u, w, hu, hw, hi⟩)
  · exact .inl (initContext_contextReset _)
  · exact .inl (initContext_contextReset _)
  · exact absurd hc.restricted hne

/-- Settles O52: raising is `haltSequence`; a `TRAP` that does not halt leaves `faulted` as it was, and so does every input
but reset. -/
theorem internalFaultHaltsTheBlock : Obligations.InternalFaultHaltsTheBlock := by
  refine ⟨fun s r => ⟨_, raiseEvent_internalFault s r, haltSequence_haltedFrom r s⟩, ?_, ?_⟩
  · intro s t h hf hft
    have hne : t.faulted ≠ s.faulted := by simp [hf, hft]
    rcases step_next h with ⟨hn, -, ht⟩ | ⟨-, -, -, rfl⟩ | ⟨-, -, rfl⟩ | ⟨-, hc, -, -⟩
    · rcases trapTransaction_outcome ht with ⟨v, rfl⟩ | ⟨r, rfl⟩ | ⟨u, -, i, hu, -, -, hc⟩
      · exact absurd rfl hne
      · exact ⟨hn, haltSequence_haltedFrom r _⟩
      · exact absurd (hc.faulted.trans (congrArg State.faulted (ensureShadow_eq hu))) hne
    · exact absurd rfl hne
    · cases hft
    · exact absurd hc.faulted hne
  · intro s t h hf hr
    rcases step_next h with ⟨-, hn, -⟩ | ⟨-, hn, -, -⟩ | ⟨-, hin, -⟩ | ⟨-, hc, -, -⟩
    · exact absurd (hf.symm.trans hn) (by decide)
    · exact absurd (hf.symm.trans hn) (by decide)
    · exact absurd hin hr
    · exact hc.faulted.trans hf

end Sys2Proof.Machine
end

section
/-! Reset, the halted block, the register table and the hard-wired register (spec 10_state.md R29, R34, R36, R45, R48;
40_register_file.md R101, R102; 70_reset_and_hazards.md R200). -/

namespace Sys2Proof.Machine

/-- A step whose next input is known takes that input. -/
theorem step_of_head {s : State} {i : HostInput} (h : s.inputs.head? = some i) : step s = takeInput i s.taken := by
  obtain ⟨rest, hrest⟩ := List.head?_eq_some_iff.1 h
  exact step_cons hrest

/-- Settles O9: the test of `faulted` comes first in both transactions. -/
theorem haltedBlockAcceptsNothing : Obligations.HaltedBlockAcceptsNothing := by
  rintro s hf (ht | hi)
  · rw [step_trapNext ht, if_pos hf]
  · rw [step_of_head hi]
    exact if_pos hf

/-- Settles O11: both end in `initContext`, and `State.reset` has the context it leaves. -/
theorem resetAndInitInitialize : Obligations.ResetAndInitInitialize := by
  refine ⟨fun s h => ⟨_, step_of_head h, initContext_contextReset _, rfl, rfl⟩, fun s hf h => ?_, reset_contextReset, rfl⟩
  rw [step_of_head h]
  exact if_neg (by simp [hf])

/-- Settles O17: the rows are compared one by one; the two directions of the lookup are the laws of `lookupCsr`. -/
theorem csrTableAsSpecified : Obligations.CsrTableAsSpecified := by
  refine ⟨by decide, lookupCsr_code, fun id hid => ?_, fun r => by cases r <;> rfl⟩
  rw [lookupCsr_eq_none_iff]
  rintro r rfl
  exact hid (List.mem_map_of_mem (mem_csrTable r))

/-- A CSRRW that passes its check completes (R141). -/
theorem exec_csrrw_allowed {s : State} {csr : Imm12} {r : Csr} (hr : r.code = csrIdOf csr)
    (h : r.minMode.num ≤ s.mode.num) (rs1 rd : RegIdx) : exec (.csrrw csr rs1 rd) s = .next (csrWritten r rs1 s) := by
  rw [exec, execCsrrw, csrWrite_allowed hr h, finish_ok]

/-- A CSRRS that passes its check completes (R142). -/
theorem exec_csrrs_allowed {s : State} {csr : Imm12} {r : Csr} (hr : r.code = csrIdOf csr)
    (h : r.minMode.num ≤ s.mode.num) (rs1 rd : RegIdx) : exec (.csrrs csr rs1 rd) s = .next (csrWasRead r rd s) := by
  rw [exec, execCsrrs, csrRead_allowed hr h, finish_ok]

/-- The register written holds the source's value (R37, R141). -/
@[simp] theorem csrWritten_get_self (r : Csr) (rs1 : RegIdx) (s : State) :
    (csrWritten r rs1 s).vregs.get r = s.readX rs1 := by
  simp [csrWritten]

/-- The destination holds the register's value, but for `x[0]` (R29, R142). -/
theorem csrWasRead_readX_self (r : Csr) {rd : RegIdx} (hrd : rd ≠ 0#5) (s : State) :
    (csrWasRead r rd s).readX rd = s.vregs.get r :=
  (readX_writeX s rd _ rd).trans (if_pos ⟨rfl, hrd⟩)

/-- Settles O23: the accessors treat index 0 apart, and the two instructions go through the accessors. -/
theorem registerZeroIsHardWired : Obligations.RegisterZeroIsHardWired := by
  intro s v
  refine ⟨readX_zero s, rfl, fun csr rd r hr hm => ?_, fun csr rs1 r hr hm => exec_csrrs_allowed hr hm rs1 0#5⟩
  exact ⟨_, exec_csrrw_allowed hr hm 0#5 rd, (csrWritten_get_self r 0#5 s).trans (readX_zero s)⟩

/-- Settles O25: the mode after reset is Machine, so the read of `mvendorid` is allowed, and its reset value is the tag. -/
theorem vendorTagIsReadAfterReset : Obligations.VendorTagIsReadAfterReset := by
  intro rd hrd
  have hid : Csr.mvendorid.code = csrIdOf 0xF11#12 := by decide
  exact ⟨_, exec_csrrs_allowed (s := State.reset) hid (Nat.le_refl 2) 0#5 rd,
    csrWasRead_readX_self .mvendorid hrd State.reset⟩

end Sys2Proof.Machine
end

section
/-! Page ranges, entries, the fetch, and the event a `TRAP` reports before its instruction (spec 20_memory.md R62 to R68;
41_decode_dispatch.md R111; 60_exceptions.md R172, R174). -/

namespace Sys2Proof.Machine

/-! ### Page ranges -/

/-- A page is in the range exactly when it holds one of its bytes: the later of `start` and the page's first byte (R63). -/
theorem inPageRange_iff_exists_byte (start stop v : Nat) :
    inPageRange start stop v = true ↔ ∃ b, start ≤ b ∧ b < stop ∧ b / pageSize = v := by
  rw [inPageRange_iff]
  simp only [pageSize]
  constructor
  · rintro ⟨hne, hstart, hstop⟩
    exact ⟨max start (v * 4096), le_max_left _ _, max_lt hne hstop, by omega⟩
  · rintro ⟨b, hstart, hstop, rfl⟩
    omega

/-- Settles O37: the range is a run of consecutive pages, of length 0 where `stop` is not above `start`. -/
theorem pageRangeListsTheOverlappedPages : Obligations.PageRangeListsTheOverlappedPages := by
  intro start stop
  refine ⟨List.pairwise_lt_range', fun hle => ?_, fun v => ?_⟩
  · rw [pageRange, pageCount, if_pos hle, List.range'_zero]
  · exact (mem_pageRange start stop v).trans (inPageRange_iff_exists_byte start stop v)

/-! ### Entries and translation -/

/-- Every page-aligned address is the base of an entry, whatever its flags (R62). -/
theorem Pte.exists_of_aligned {a : Word} (h : a.toNat % pageSize = 0) (f : Nat) : ∃ e : Pte, e.pa = a ∧ e.flags = f := by
  have hframe : a.toNat / pageSize < 2 ^ 52 := Nat.div_lt_of_lt_mul a.isLt
  refine ⟨⟨BitVec.ofNat 52 (a.toNat / pageSize), f⟩, BitVec.eq_of_toNat_eq ?_, rfl⟩
  rw [Pte.toNat_pa, BitVec.toNat_ofNat, Nat.mod_eq_of_lt hframe, Nat.div_mul_cancel (Nat.dvd_of_mod_eq_zero h)]

/-- The address translated to is the entry's base plus the page offset, without a carry out of 64 bits (R65). -/
theorem Pte.toNat_pa_add_offOf (e : Pte) (va : Word) : (e.pa + offOf va).toNat = e.pa.toNat + va.toNat % pageSize := by
  simpa using e.toNat_pa_add va (k := 0) (Nat.mod_lt _ (by decide))

/-- A translation keeps the page offset (R65). -/
theorem offset_of_translateAddr {s : State} {va pa : Word} (h : translateAddr s va = .ok pa) :
    pa.toNat % pageSize = va.toNat % pageSize := by
  rcases translateAddr_cases s va with ⟨-, e⟩ | ⟨-, -, -, e⟩ | ⟨-, pte, -, -, e⟩ <;> rw [e] at h <;> cases h
  rw [pte.toNat_pa_add_offOf, Nat.add_mod, pte.pa_aligned, Nat.zero_add, Nat.mod_mod, Nat.mod_mod]

/-- Settles O53: an entry is a page frame number, whose multiples of the page size are the aligned addresses, beside its
flags; and the base adds nothing to the offset. -/
theorem entriesArePageAligned : Obligations.EntriesArePageAligned :=
  ⟨Pte.pa_aligned, fun _ f h => Pte.exists_of_aligned h f, fun _ _ => Pte.eq_of_pa_flags,
    fun _ _ _ => offset_of_translateAddr⟩

/-! ### The fetch, one rule per case -/

section
variable {s : State} {va : Word} {tbl : Table}

/-- The alignment test comes before translation (R66). -/
theorem fetch_of_misaligned (s : State) (h : va.toNat % 4 ≠ 0) :
    fetch s va = .error (.internalFault .fetchMisaligned) :=
  if_pos (mt (aligned_iff va).1 h)

/-- A fetch from an aligned address is the translation and then the read (R66). -/
theorem fetch_of_aligned (s : State) (h : va.toNat % 4 = 0) :
    fetch s va = (translateAddr s va).map s.mem.readWord := by
  rw [fetch, if_neg (not_not.2 ((aligned_iff va).2 h))]
  cases translateAddr s va <;> rfl

theorem fetch_of_absentTable (h : va.toNat % 4 = 0) (hl : liveTable s = none) :
    fetch s va = .error (.stop .absentTable) := by
  simp [fetch_of_aligned s h, translateAddr, hl, Except.map]

theorem fetch_of_unmapped (h : va.toNat % 4 = 0) (hl : liveTable s = some tbl) (hf : tbl.find (vpnOf va) = none) :
    fetch s va = .error (.internalFault .fetchUnmapped) := by
  simp [fetch_of_aligned s h, translateAddr, hl, hf, Except.map]

theorem fetch_of_mapped {e : Pte} (h : va.toNat % 4 = 0) (hl : liveTable s = some tbl)
    (hf : tbl.find (vpnOf va) = some e) : fetch s va = .ok (s.mem.readWord (e.pa + offOf va)) := by
  simp [fetch_of_aligned s h, translateAddr, hl, hf, Except.map]

end

/-- The word read at an aligned address of a page is the little-endian number of four bytes that all lie in that page, so
their addresses are sums of numbers (R66, R67). -/
theorem toNat_readWord_of_aligned (m : Memory) (e : Pte) {va : Word} (h : va.toNat % 4 = 0) :
    (m.readWord (e.pa + offOf va)).toNat =
      (m.byteAt (e.pa.toNat + va.toNat % pageSize + 0)).toNat +
        2 ^ 8 * (m.byteAt (e.pa.toNat + va.toNat % pageSize + 1)).toNat +
        2 ^ 16 * (m.byteAt (e.pa.toNat + va.toNat % pageSize + 2)).toNat +
        2 ^ 24 * (m.byteAt (e.pa.toNat + va.toNat % pageSize + 3)).toNat := by
  have hroom : va.toNat % pageSize + 3 < pageSize := by simp only [pageSize]; omega
  rw [Memory.readWord, toNat_wordOfBytes, e.toNat_pa_add_offOf, Nat.add_zero,
    ← e.toNat_pa_add va (k := 1) (by omega), ← e.toNat_pa_add va (k := 2) (by omega),
    ← e.toNat_pa_add va (k := 3) hroom]
  rfl

/-- Settles O51: the cases of `fetch`, and what a read of a written and of an unwritten byte answers. -/
theorem fetchReadsTheLittleEndianWord : Obligations.FetchReadsTheLittleEndianWord := by
  intro u va
  refine ⟨fetch_of_misaligned u, fun tbl => fetch_of_unmapped, fun tbl e ha hl hf => ?_, fetch_of_absentTable,
    fun a b hb => ?_, fun a hb => ?_⟩
  · exact ⟨_, fetch_of_mapped ha hl hf, toNat_readWord_of_aligned u.mem e ha⟩
  · rw [Memory.byteAt, hb]
  · rw [Memory.byteAt, hb]

/-! ### The first event of a `TRAP` -/

/-- The lazy construction fails where a page of the two ranges is absent from the host's table (R111, R153). -/
theorem ensureShadow_of_absentPage {s : State} (ho : s.origTable.wf = true) (hs : s.shadowTable = none) {v : Nat}
    (hv : inBothRanges s.guestSize v) (hn : s.origTable.find v = none) :
    ensureShadow s = .error (.internalFault .inconsistentGuestMapping) := by
  rcases ensureShadow_cases s with ⟨sh, hsh, -⟩ | ⟨sh, -, hb, -⟩ | ⟨-, -, e⟩
  · exact absurd (hs.symm.trans hsh) (Option.some_ne_none sh).symm
  · have hmap := (Table.duplicateBoth_isSome ho s.guestSize).1 (by rw [← buildShadow, hb]; rfl)
    exact absurd hn (hmap v hv)
  · exact e

section
variable {s u : State} {r : InternalFault} (hn : s.trapNext = true) (hf : s.faulted = false)
include hn hf

/-- A `TRAP` whose step 1 raises an internal fault halts the block (R172). -/
theorem step_halts_of_ensureShadow (h : ensureShadow s.taken = .error (.internalFault r)) :
    ∃ t, step s = .next t ∧ s.taken.HaltedFrom t := by
  refine ⟨_, ?_, haltSequence_haltedFrom r s.taken⟩
  simp [step_trapNext hn, hf, trapTransaction, h]

/-- A `TRAP` whose fetch raises an internal fault halts the block, and the shadow just built leaves no trace (R172). -/
theorem step_halts_of_fetch (hu : ensureShadow s.taken = .ok u) (h : fetch u u.pc = .error (.internalFault r)) :
    ∃ t, step s = .next t ∧ s.taken.HaltedFrom t := by
  refine ⟨_, ?_, haltedFrom_of_ensureShadow hu (haltSequence_haltedFrom r u)⟩
  simp [step_trapNext hn, hf, trapTransaction, hu, h]

end

/-- Settles O8: the construction comes before the fetch, whose alignment test comes before its translation; `pc` is the one
of the state before the construction. -/
theorem firstEventOfATrap : Obligations.FirstEventOfATrap := by
  intro s hn hf hi
  have hpc : ∀ u, ensureShadow s.taken = .ok u → u.pc = s.pc := fun u hu => (congrArg State.pc (ensureShadow_eq hu) :)
  refine ⟨?absentPage, ?misaligned, ?unmapped⟩
  case absentPage =>
    rintro hs ⟨v, hv, habs⟩
    have h := ensureShadow_of_absentPage (s := s.taken) hi.origWf hs hv habs
    exact ⟨h, step_halts_of_ensureShadow hn hf h⟩
  case misaligned =>
    intro u hu ha
    have h : fetch u u.pc = .error (.internalFault .fetchMisaligned) := fetch_of_misaligned u (hpc u hu ▸ ha)
    exact ⟨h, step_halts_of_fetch hn hf hu h⟩
  case unmapped =>
    intro u tbl hu ha hl habs
    rw [← hpc u hu] at ha habs
    have h := fetch_of_unmapped ha hl habs
    exact ⟨h, step_halts_of_fetch hn hf hu h⟩

end Sys2Proof.Machine
end

section
/-! What the decoder answers, and that it and the encoder are inverse to each other (spec 30_encoding.md R80 to R88). -/

namespace Sys2Proof

/-! ### The decoder's CSR branches (R84, R86, R87) -/

/-- `funct3` = 1 is the write class (R86). -/
theorem decodeWord_of_funct3_one {w : InstrWord} (ho : fieldOpcode w = opcodeSystem) (hf : fieldFunct3 w = 1#3) :
    decodeWord w = .ok (.csrrw (fieldImm12 w) (fieldRs1 w) (fieldRd w)) := by
  simp [decodeWord, ho, hf]

/-- `funct3` = 2 is the read class (R87). -/
theorem decodeWord_of_funct3_two {w : InstrWord} (ho : fieldOpcode w = opcodeSystem) (hf : fieldFunct3 w = 2#3) :
    decodeWord w = .ok (.csrrs (fieldImm12 w) (fieldRs1 w) (fieldRd w)) := by
  simp [decodeWord, ho, hf]

/-- The match and mask pair of CSRRW (R86). -/
theorem matches_csrrw_iff (w : InstrWord) :
    w &&& 0x0000707F#32 = 0x00001073#32 ↔ fieldOpcode w = opcodeSystem ∧ fieldFunct3 w = 1#3 :=
  maskMatch_iff_fields w 1#3

/-- The match and mask pair of CSRRS (R87). -/
theorem matches_csrrs_iff (w : InstrWord) :
    w &&& 0x0000707F#32 = 0x00002073#32 ↔ fieldOpcode w = opcodeSystem ∧ fieldFunct3 w = 2#3 :=
  maskMatch_iff_fields w 2#3

/-! ### Words and instructions -/

/-- Decoding the word of an instruction gives it back (R84 to R87). -/
theorem decodeWord_encodeWord (i : Instr) : decodeWord (encodeWord i) = .ok i := by
  cases i with
  | ecall => rfl
  | sret => rfl
  | mret => rfl
  | csrrw csr rs1 rd =>
    rw [encodeWord, decodeWord_of_funct3_one (Laws.fieldOpcode_packWord ..) (Laws.fieldFunct3_packWord ..),
      fieldImm12_packWord, fieldRs1_packWord, fieldRd_packWord]
  | csrrs csr rs1 rd =>
    rw [encodeWord, decodeWord_of_funct3_two (Laws.fieldOpcode_packWord ..) (Laws.fieldFunct3_packWord ..),
      fieldImm12_packWord, fieldRs1_packWord, fieldRd_packWord]

/-- A word that decodes is the word of the instruction it decodes to (R84). -/
theorem encodeWord_of_decodeWord {w : InstrWord} {i : Instr} (h : decodeWord w = .ok i) : encodeWord i = w := by
  rw [decodeWord] at h
  split_ifs at h with ho h0 hecall hsret hmret h1 h2 <;> cases h
  · exact hecall.symm
  · exact hsret.symm
  · exact hmret.symm
  · rw [encodeWord, ← h1, packWord_fields (not_not.1 ho)]
  · rw [encodeWord, ← h2, packWord_fields (not_not.1 ho)]

/-- The decoder and the encoder are inverse to each other on words. -/
theorem decodeWord_eq_ok_iff {w : InstrWord} {i : Instr} : decodeWord w = .ok i ↔ encodeWord i = w :=
  ⟨encodeWord_of_decodeWord, fun h => h ▸ decodeWord_encodeWord i⟩

/-! ### Byte strings -/

/-- On a word's bytes the decoder is `decodeWord`, and it leaves the bytes after them (R67, R80). -/
theorem decode_bytesOfWord_append (w : InstrWord) (rest : List Byte) :
    decode (bytesOfWord w ++ rest) = (decodeWord w).map (·, rest) := by
  simp only [bytesOfWord, List.cons_append, List.nil_append, decode, Machine.wordOfBytes_byteOfWord]
  cases decodeWord w <;> rfl

/-- Bytes that decode are the four bytes of a word that decodes, and the bytes that are left (R67, R80). -/
theorem exists_word_of_decode {bytes rest : List Byte} {i : Instr} (h : decode bytes = .ok (i, rest)) :
    ∃ w, decodeWord w = .ok i ∧ bytes = bytesOfWord w ++ rest := by
  match bytes, h with
  | b0 :: b1 :: b2 :: b3 :: tail, h =>
    refine ⟨wordOfBytes b0 b1 b2 b3, ?_⟩
    rw [decode] at h
    cases hw : decodeWord (wordOfBytes b0 b1 b2 b3) with
    | error r => rw [hw] at h; cases h
    | ok j =>
      rw [hw] at h
      cases h
      exact ⟨rfl, by rw [bytesOfWord_wordOfBytes]; rfl⟩

/-- Settles O2: the bytes of the instruction's word make the word again, whose fields are the instruction's operands. -/
theorem decodeOfEncodeIsTheInstruction : Obligations.DecodeOfEncodeIsTheInstruction := by
  intro i rest
  rw [encode, decode_bytesOfWord_append, decodeWord_encodeWord]
  rfl

/-- Settles O3: the first four bytes are those of a word that decodes, and that is the word of its instruction. -/
theorem encodeOfDecodeIsTheBytes : Obligations.EncodeOfDecodeIsTheBytes := by
  intro bytes rest i h
  obtain ⟨w, hw, rfl⟩ := exists_word_of_decode h
  rw [encode, encodeWord_of_decodeWord hw]

/-- Settles O1: each of the six words is the encoding of its instruction. -/
theorem specifiedWordsDecode : Obligations.SpecifiedWordsDecode := by
  refine ⟨?_, ?_, ?_, ?_, ?_, ?_⟩ <;> exact decodeWord_eq_ok_iff.2 (by decide)

end Sys2Proof
end

section
/-! The words the decoder admits and their fields as numbers, and what an unrecognised word does to the guest (spec
30_encoding.md R81 to R88; 41_decode_dispatch.md R110; 60_exceptions.md R171). -/

namespace Sys2Proof.Machine

/-! ### Unrecognised words -/

/-- A word decodes exactly when one of the table's five match and mask pairs admits it (R85 to R87). -/
theorem exists_decodeWord_ok_iff (w : InstrWord) :
    (∃ i, decodeWord w = .ok i) ↔
      w = 0x00000073#32 ∨ w = 0x10200073#32 ∨ w = 0x30200073#32 ∨
        w &&& 0x0000707F#32 = 0x00001073#32 ∨ w &&& 0x0000707F#32 = 0x00002073#32 := by
  rw [matches_csrrw_iff, matches_csrrs_iff]
  constructor
  · rintro ⟨i, hi⟩
    rw [← encodeWord_of_decodeWord hi]
    cases i with
    | ecall => exact .inl rfl
    | sret => exact .inr (.inl rfl)
    | mret => exact .inr (.inr (.inl rfl))
    | csrrw csr rs1 rd =>
      exact .inr (.inr (.inr (.inl ⟨Laws.fieldOpcode_packWord .., Laws.fieldFunct3_packWord ..⟩)))
    | csrrs csr rs1 rd =>
      exact .inr (.inr (.inr (.inr ⟨Laws.fieldOpcode_packWord .., Laws.fieldFunct3_packWord ..⟩)))
  · rintro (rfl | rfl | rfl | ⟨ho, hf⟩ | ⟨ho, hf⟩)
    · exact ⟨_, decodeWord_encodeWord .ecall⟩
    · exact ⟨_, decodeWord_encodeWord .sret⟩
    · exact ⟨_, decodeWord_encodeWord .mret⟩
    · exact ⟨_, decodeWord_of_funct3_one ho hf⟩
    · exact ⟨_, decodeWord_of_funct3_two ho hf⟩

/-- Dispatching a word that is no instruction runs the violation sequence (R88). -/
theorem dispatchWord_of_reject {w : InstrWord} {r : DecodeReject} (h : decodeWord w = .error r) (s : State) :
    dispatchWord w s = .next (violationSequence .unrecognisedInstruction s) := by
  rw [dispatchWord, h]
  exact raiseEvent_violation s _

/-- Settles O4: the decoder answers an instruction or a reject, and a reject is the violation sequence. -/
theorem otherWordsAreUnrecognised : Obligations.OtherWordsAreUnrecognised := by
  intro w s
  rw [← exists_decodeWord_ok_iff]
  refine ⟨id, fun hno => ?_⟩
  cases hw : decodeWord w with
  | ok i => exact absurd ⟨i, hw⟩ hno
  | error r => exact ⟨⟨r, rfl⟩, _, dispatchWord_of_reject hw s, violationSequence_killedFrom _ s⟩

/-- Settles O7: the step is the dispatch of the fetched word, whose violation discards the shadow just built (R10). -/
theorem stepKillsOnUnrecognisedWord : Obligations.StepKillsOnUnrecognisedWord := by
  intro s u w r hn hf hu hw hr
  refine ⟨_, ?_, killedFrom_of_ensureShadow hu (violationSequence_killedFrom .unrecognisedInstruction u)⟩
  simp [step_trapNext hn, hf, trapTransaction, hu, hw, dispatchWord_of_reject hr]

/-! ### The fields as numbers (R81 to R83) -/

/-- The immediate is the top of the word, so its number is a quotient. -/
theorem toNat_fieldImm12 (w : InstrWord) : (fieldImm12 w).toNat = w.toNat / 2 ^ 20 := by
  rw [fieldImm12, BitVec.extractLsb'_toNat, Nat.shiftRight_eq_div_pow]
  exact Nat.mod_eq_of_lt (Nat.div_lt_of_lt_mul w.isLt)

theorem toNat_fieldRs1 (w : InstrWord) : (fieldRs1 w).toNat = w.toNat / 2 ^ 15 % 32 := by
  rw [fieldRs1, BitVec.extractLsb'_toNat, Nat.shiftRight_eq_div_pow]

theorem toNat_fieldRd (w : InstrWord) : (fieldRd w).toNat = w.toNat / 2 ^ 7 % 32 := by
  rw [fieldRd, BitVec.extractLsb'_toNat, Nat.shiftRight_eq_div_pow]

/-- The identifier is the immediate zero-extended (R83). -/
theorem toNat_csrIdOf (csr : Imm12) : (csrIdOf csr).toNat = csr.toNat :=
  BitVec.toNat_setWidth_of_le (by decide)

/-- Settles O5: the operands are the word's fields, in both CSR branches of the decoder. -/
theorem csrWordsDecodeToTheirFields : Obligations.CsrWordsDecodeToTheirFields := by
  intro w
  refine ⟨fieldImm12 w, fieldRs1 w, fieldRd w, toNat_fieldImm12 w, toNat_fieldRs1 w, toNat_fieldRd w,
    (toNat_csrIdOf _).trans (toNat_fieldImm12 w), fun h => ?_, fun h => ?_⟩
  · obtain ⟨ho, hf⟩ := (matches_csrrw_iff w).1 h
    exact decodeWord_of_funct3_one ho hf
  · obtain ⟨ho, hf⟩ := (matches_csrrs_iff w).1 h
    exact decodeWord_of_funct3_two ho hf

end Sys2Proof.Machine
end

section
/-! `Initialize()` as a transaction: the context it resets and the frame it keeps (spec 40_register_file.md R100, R102). -/

namespace Sys2Proof.Machine

/-- `Initialize()` writes nothing outside the context, `faulted` and the inputs included (R100, state not written). -/
theorem initContext_sameOutside (s : State) : s.SameOutside (initContext s) where
  registers _ := rfl
  pc := initContext_pc s
  origTable := initContext_origTable s
  guestSize := initContext_guestSize s
  mem _ := by rw [initContext_mem]
  faulted := initContext_faulted s
  freeDraws := initContext_freeDraws s
  inputs := initContext_inputs s

/-- Settles O10: the transaction answers `initContext`, which resets the context, gives one pulse and keeps the rest. -/
theorem initTransactionInitializes : Obligations.InitTransactionInitializes := fun s =>
  ⟨initContext s, rfl, initContext_contextReset s, initContext_tlbFlushes s, initContext_killed s,
    initContext_sameOutside s⟩

end Sys2Proof.Machine
end

section
/-! The dispatch of a fetched word: which instruction it runs, what can halt or stop it, and that the host's boot
requirements rule both out (spec 41_decode_dispatch.md R110 to R113; 42_privilege_transitions.md R131;
70_reset_and_hazards.md R202). -/

namespace Sys2Proof.Machine

/-! ### The step as a dispatch (R110) -/

/-- A `TRAP` whose construction and fetch succeed is the dispatch of the fetched word (R110). -/
theorem step_eq_dispatchWord {s u : State} {w : InstrWord} (hn : s.trapNext = true) (hf : s.faulted = false)
    (hu : ensureShadow s.taken = .ok u) (hw : fetch u u.pc = .ok w) : step s = dispatchWord w u := by
  simp [step_trapNext hn, hf, trapTransaction, hu, hw]

/-- Dispatching a word that is an instruction runs it (R113). -/
theorem dispatchWord_of_instr {w : InstrWord} {i : Instr} (h : decodeWord w = .ok i) (s : State) :
    dispatchWord w s = exec i s := by
  rw [dispatchWord, h]

/-- Settles O6: the step is the dispatch of the fetched word, and the dispatch of an instruction's word is `exec`. -/
theorem stepRunsDecodedInstruction : Obligations.StepRunsDecodedInstruction := by
  intro s u w i hn hf hu hw hi _
  rw [step_eq_dispatchWord hn hf hu hw, dispatchWord_of_instr hi]

/-! ### Which instruction can stop or halt the block (R113, R131, R172) -/

/-- Every instruction but MRET answers a next state, for none of them raises a stop of the model. -/
theorem exists_exec_next_of_ne_mret {i : Instr} (hi : i ≠ .mret) (s : State) : ∃ t, exec i s = .next t := by
  cases i with
  | ecall => rw [exec, execEcall, ecall]; cases s.mode <;> exact ⟨_, rfl⟩
  | sret => rw [exec, execSret, sret]; cases s.mode <;> exact ⟨_, rfl⟩
  | mret => exact absurd rfl hi
  | csrrw csr rs1 rd =>
    rw [exec, execCsrrw]
    rcases csrWrite_cases (csrIdOf csr) rs1 s with ⟨v, e⟩ | ⟨r, -, -, e⟩ <;> rw [e] <;> exact ⟨_, rfl⟩
  | csrrs csr rs1 rd =>
    rw [exec, execCsrrs]
    rcases csrRead_cases (csrIdOf csr) rd s with ⟨v, e⟩ | ⟨r, -, -, e⟩ <;> rw [e] <;> exact ⟨_, rfl⟩

/-- MRET with a shadow to rebuild from answers a next state (R131). -/
theorem exists_exec_mret_next {s : State} (hs : s.shadowTable ≠ none) : ∃ t, exec .mret s = .next t := by
  rw [exec, execMret]
  rcases mret_cases s with ⟨-, e⟩ | ⟨-, -, e⟩ | ⟨-, -, habs, -⟩ | ⟨-, -, sh, -, -, e⟩ | ⟨-, -, sh, tbl, -, -, e⟩
  case inr.inr.inl => exact absurd habs hs
  all_goals rw [e]; exact ⟨_, rfl⟩

/-- MRET with the flag set and no shadow stops the model (log 12). -/
theorem exec_mret_of_absentTable {s : State} (hm : s.mode ≠ .user) (hf : s.pmpConfiguration = true)
    (hs : s.shadowTable = none) : exec .mret s = .fault .absentTable := by
  simp [exec, execMret, mret, below_supervisor_iff, hm, hf, pmpSync, hs]

/-- An instruction keeps `faulted`, but for an MRET whose rebuild finds a page absent (R172). -/
theorem exec_faulted_or_halts {i : Instr} {s t : State} (h : exec i s = .next t) :
    t.faulted = s.faulted ∨
    (i = .mret ∧ s.mode ≠ .user ∧ s.pmpConfiguration = true ∧ t = haltSequence .inconsistentGuestMapping s ∧
      ∃ sh, s.shadowTable = some sh ∧ buildRestricted sh s.guestSize (pmpRegions s.vregs) = none) := by
  rcases exec_next h with ⟨v, rfl⟩ | hhalt | ⟨-, -, rfl⟩ | ⟨-, -, rfl⟩ | ⟨-, -, rfl⟩ | ⟨-, -, -, rfl⟩ |
    ⟨-, -, -, sh, tbl, -, -, rfl⟩ | ⟨csr, rs1, rd, r, -, -, -, rfl⟩ | ⟨csr, rs1, rd, r, -, -, -, rfl⟩
  case inr.inl => exact .inr hhalt
  all_goals exact .inl (by simp [csrWritten, csrWasRead])

/-- Settles O36: MRET's rebuild is the one place where an instruction raises an internal fault or a stop of the model. -/
theorem onlyTheRebuildHaltsTheBlock : Obligations.OnlyTheRebuildHaltsTheBlock := by
  refine ⟨fun i s hi => ?_, fun _ => exists_exec_mret_next, fun s t h => ?_, fun _ => exec_mret_of_absentTable⟩
  · obtain ⟨t, ht⟩ := exists_exec_next_of_ne_mret hi s
    exact ⟨t, ht, (exec_faulted_or_halts ht).resolve_right fun hhalt => hi hhalt.1⟩
  · rcases exec_faulted_or_halts h with hkeep | ⟨-, hm, hf, rfl, hb⟩
    · exact .inl hkeep
    · exact .inr ⟨haltSequence_haltedFrom _ s, hm, hf, hb⟩

/-! ### The first `TRAP` of a host that meets the boot requirements (R202) -/

/-- Beside a shadow from which the restricted table can be rebuilt, any word dispatches to a next state without a halt. -/
theorem dispatchWord_keeps_faulted {s : State} {sh : Table} (hs : s.shadowTable = some sh)
    (hb : buildRestricted sh s.guestSize (pmpRegions s.vregs) ≠ none) (w : InstrWord) :
    ∃ t, dispatchWord w s = .next t ∧ t.faulted = s.faulted := by
  cases hw : decodeWord w with
  | error r => exact ⟨_, dispatchWord_of_reject hw s, by simp⟩
  | ok i =>
    have hnext : ∃ t, exec i s = .next t := by
      by_cases hi : i = .mret
      · exact hi ▸ exists_exec_mret_next (hs ▸ Option.some_ne_none sh)
      · exact exists_exec_next_of_ne_mret hi s
    obtain ⟨t, ht⟩ := hnext
    refine ⟨t, (dispatchWord_of_instr hw s).trans ht, ?_⟩
    rcases exec_faulted_or_halts ht with hkeep | ⟨-, -, -, -, sh', hs', hnone⟩
    · exact hkeep
    · cases hs.symm.trans hs'
      exact absurd hnone hb

/-- On a canonical table the walk succeeds exactly where every page of the range is mapped (R151). -/
theorem Table.covers_iff {t : Table} (ht : t.wf = true) (start stop : Nat) :
    t.Covers start stop ↔ ∀ v, inPageRange start stop v = true → t.find v ≠ none := by
  rw [← Table.duplicateRegion_isSome ht [], Table.duplicateRegion, Option.isSome_map, Option.isSome_iff_ne_none]

/-- The boot requirements map every page that the lazy construction duplicates (R153, R202). -/
theorem State.BootReady.mapped {s : State} (hb : s.BootReady) (ho : s.origTable.wf = true) {v : Nat}
    (hv : inBothRanges s.guestSize v) : s.origTable.find v ≠ none :=
  hv.elim ((Table.covers_iff ho _ _).1 hb.userMapped v) ((Table.covers_iff ho _ _).1 hb.windowMapped v)

/-- The lazy construction succeeds where the host has mapped both ranges (R111, R153). -/
theorem ensureShadow_of_mapped {s : State} (ho : s.origTable.wf = true) (hs : s.shadowTable = none)
    (hmap : ∀ v, inBothRanges s.guestSize v → s.origTable.find v ≠ none) :
    ∃ sh, buildShadow s.origTable s.guestSize = some sh ∧ ensureShadow s = .ok { s with shadowTable := some sh } := by
  obtain ⟨sh, hsh⟩ := Option.isSome_iff_exists.1 ((Table.duplicateBoth_isSome ho s.guestSize).2 hmap)
  rw [← buildShadow] at hsh
  exact ⟨sh, hsh, by simp [ensureShadow, hs, hsh]⟩

/-- A shadow just built maps both ranges, so the restricted table can be built from it (R153, R157). -/
theorem buildRestricted_of_buildShadow {src sh : Table} (hsrc : src.wf = true) {g : Word}
    (h : buildShadow src g = some sh) (rs : List PmpRegion) : buildRestricted sh g rs ≠ none := by
  rw [← Option.isSome_iff_ne_none, buildRestricted_isSome (Table.wf_duplicateBoth hsrc h)]
  intro v hv
  rw [Table.find_duplicateBoth hsrc h, if_pos hv]
  exact (Table.duplicateBoth_isSome hsrc g).1 (Option.isSome_of_eq_some h) v hv

/-- A fetch through the original table succeeds at an aligned `pc` whose page is mapped (R65, R66). -/
theorem exists_fetch_of_original {s : State} (hl : s.liveSel = .original) (ha : s.pc.extractLsb' 0 2 = 0#2)
    (hm : s.origTable.find (vpnOf s.pc) ≠ none) : ∃ w, fetch s s.pc = .ok w := by
  obtain ⟨e, he⟩ := Option.ne_none_iff_exists'.1 hm
  exact ⟨_, fetch_of_mapped ((aligned_iff s.pc).1 ha) (by rw [liveTable, hl]) he⟩

/-- Settles O49: the two ranges are mapped, so the construction succeeds; `pc` is in one of them, so the fetch succeeds; and
the new shadow maps them too, so not even an MRET's rebuild can halt the block. -/
theorem bootReadyTrapCompletes : Obligations.BootReadyTrapCompletes := by
  intro s hi hb hs hf hn
  have hmap : ∀ v, inBothRanges s.guestSize v → s.origTable.find v ≠ none := fun _ => hb.mapped hi.origWf
  obtain ⟨sh, hsh, hu⟩ := ensureShadow_of_mapped (s := s.taken) hi.origWf hs hmap
  obtain ⟨w, hw⟩ := exists_fetch_of_original (s := { s.taken with shadowTable := some sh }) hb.originalLive hb.pcAligned
    (hmap _ hb.pcInside)
  obtain ⟨t, ht, hkeep⟩ := dispatchWord_keeps_faulted (s := { s.taken with shadowTable := some sh }) rfl
    (buildRestricted_of_buildShadow hi.origWf hsh _) w
  exact ⟨t, (step_eq_dispatchWord hn hf hu hw).trans ht, hkeep.trans hf⟩

end Sys2Proof.Machine
end

section
/-! The privilege transitions one by one (spec 42_privilege_transitions.md R120 to R131, R181): the state each answers from
each mode, the registers it keeps, and what it raises before any write. -/

namespace Sys2Proof.Machine

section

variable {s : State}

/-! ### What ECALL, SRET and MRET answer from a known mode -/

theorem ecall_of_user (hm : s.mode = .user) : ecall s = .ok (enterSupervisor s) := by rw [ecall, hm]

theorem ecall_of_supervisor (hm : s.mode = .supervisor) : ecall s = .ok (enterMachine s) := by rw [ecall, hm]

theorem ecall_of_machine (hm : s.mode = .machine) : ecall s = .error (.violation .ecallAtMachine) := by rw [ecall, hm]

theorem sret_of_supervisor (hm : s.mode = .supervisor) : sret s = .ok (returnThroughSepc s) := by rw [sret, hm]

theorem sret_of_ne_supervisor (hm : s.mode ≠ .supervisor) : sret s = .error (.violation .sretNotSupervisor) := by
  rw [sret]
  split
  case h_1 h => exact absurd h hm
  all_goals rfl

theorem mret_of_user (hm : s.mode = .user) : mret s = .error (.violation .mretAtUser) := by
  rw [mret, if_pos ((below_supervisor_iff _).2 hm)]

theorem mret_of_flag_clear (hm : s.mode ≠ .user) (hf : s.pmpConfiguration = false) :
    mret s = .ok (returnThroughMepc s) := by
  simp [mret, below_supervisor_iff, hm, hf]

/-- With the flag set MRET is the synchronisation point after the return (R131). -/
theorem mret_of_flag_set (hm : s.mode ≠ .user) (hf : s.pmpConfiguration = true) :
    mret s = pmpSync (returnThroughMepc s) := by
  simp only [mret, below_supervisor_iff, if_neg hm, if_pos hf]

theorem pmpSync_of_built {sh rt : Table} (hs : s.shadowTable = some sh)
    (hb : buildRestricted sh s.guestSize (pmpRegions s.vregs) = some rt) :
    pmpSync s = .ok (install .restricted { s with restrictedTable := some rt }) := by
  simp only [pmpSync, hs, hb]

theorem pmpSync_of_absentPage {sh : Table} (hs : s.shadowTable = some sh)
    (hb : buildRestricted sh s.guestSize (pmpRegions s.vregs) = none) :
    pmpSync s = .error (.internalFault .inconsistentGuestMapping) := by
  simp only [pmpSync, hs, hb]

theorem exec_ecall_of_user (hm : s.mode = .user) : exec .ecall s = .next (enterSupervisor s) :=
  congrArg (finish s) (ecall_of_user hm)

theorem exec_ecall_of_supervisor (hm : s.mode = .supervisor) : exec .ecall s = .next (enterMachine s) :=
  congrArg (finish s) (ecall_of_supervisor hm)

theorem exec_sret_of_supervisor (hm : s.mode = .supervisor) : exec .sret s = .next (returnThroughSepc s) :=
  congrArg (finish s) (sret_of_supervisor hm)

/-- An instruction whose function raises a violation kills the guest (R171). -/
theorem finish_killedFrom {e : Except Raise State} {v : Violation} (h : e = .error (.violation v)) :
    ∃ t, finish s e = .next t ∧ s.KilledFrom t :=
  ⟨_, congrArg (finish s) h, violationSequence_killedFrom v s⟩

/-! ### The registers a transition keeps (R121, R122, R125, R130) -/

theorem enterSupervisor_get {r : Csr} (hp : r ≠ .sepc) (hs : r ≠ .sstatus) :
    (enterSupervisor s).vregs.get r = s.vregs.get r :=
  (VRegFile.get_set_other (s.vregs.set .sepc s.pc) hs _).trans (VRegFile.get_set_other s.vregs hp _)

theorem enterMachine_get {r : Csr} (hp : r ≠ .mepc) (hs : r ≠ .mstatus) :
    (enterMachine s).vregs.get r = s.vregs.get r :=
  (VRegFile.get_set_other (s.vregs.set .mepc s.pc) hs _).trans (VRegFile.get_set_other s.vregs hp _)

theorem returnThroughSepc_get {r : Csr} (hs : r ≠ .sstatus) : (returnThroughSepc s).vregs.get r = s.vregs.get r :=
  VRegFile.get_set_other s.vregs hs _

theorem returnThroughMepc_get {r : Csr} (hs : r ≠ .mstatus) : (returnThroughMepc s).vregs.get r = s.vregs.get r :=
  VRegFile.get_set_other s.vregs hs _

/-! ### The mode a return lands in -/

/-- SRET from Supervisor lands where the one bit of SPP says (R125). -/
theorem returnThroughSepc_mode_of_supervisor (hm : s.mode = .supervisor) :
    (returnThroughSepc s).mode = if s.vregs.sstatus.getLsbD 8 then Mode.supervisor else Mode.user := by
  rw [returnThroughSepc_mode, sppOf_eq, hm]
  split <;> rfl

/-- MRET lands where the two bits of MPP say (R130). -/
theorem returnThroughMepc_mode_eq_mretMode (s : State) :
    (returnThroughMepc s).mode = mretMode s.vregs.mstatus s.mode := by
  rw [returnThroughMepc_mode, mppOf_eq, mretMode]
  cases s.vregs.mstatus.getLsbD 12 <;> cases s.vregs.mstatus.getLsbD 11 <;> rfl

end

/-! ### ECALL (R121 to R123) -/

/-- Settles O12: ECALL answers `enterSupervisor`, whose `sstatus` is read bit by bit. -/
theorem ecallFromUserEntersSupervisor : Obligations.EcallFromUserEntersSupervisor := by
  intro s hm
  have hbit := getLsbD_sstatusOnEntry s.vregs.sstatus
  exact ⟨enterSupervisor s, exec_ecall_of_user hm, rfl, rfl, rfl, hbit 5, hbit 1, hbit 8,
    fun k h5 h1 h8 => by simp [hbit, h5, h1, h8], fun r => enterSupervisor_get, rfl⟩

/-- Settles O13: ECALL answers `enterMachine`, whose `mstatus` is read bit by bit. -/
theorem ecallFromSupervisorEntersMachine : Obligations.EcallFromSupervisorEntersMachine := by
  intro s hm
  have hbit := getLsbD_mstatusOnEntry s.vregs.mstatus
  exact ⟨enterMachine s, exec_ecall_of_supervisor hm, rfl, rfl, rfl, rfl, rfl, hbit 7, hbit 3, hbit 11, hbit 12,
    fun k h7 h3 h11 h12 => by simp [hbit, h7, h3, h11, h12], fun r => enterMachine_get, rfl⟩

/-- Settles O14: ECALL raises before any write, and the violation sequence follows. -/
theorem ecallAtMachineKills : Obligations.EcallAtMachineKills := fun _ hm =>
  ⟨ecall_of_machine hm, finish_killedFrom (ecall_of_machine hm)⟩

/-! ### SRET and MRET (R125, R130, R131) -/

/-- Settles O15: from Supervisor SRET answers `returnThroughSepc`; from the other two modes it raises. -/
theorem sretInEveryMode : Obligations.SretInEveryMode := by
  refine fun s => ⟨fun hm => ?_, fun hm => ⟨sret_of_ne_supervisor hm, finish_killedFrom (sret_of_ne_supervisor hm)⟩⟩
  have hbit := getLsbD_sstatusOnReturn s.vregs.sstatus
  exact ⟨returnThroughSepc s, exec_sret_of_supervisor hm, hbit 1, fun k hk => (hbit k).trans (if_neg hk),
    returnThroughSepc_mode_of_supervisor hm, rfl, fun r => returnThroughSepc_get, rfl⟩

/-- Settles O16: above User MRET returns through `mepc`; with the flag set the synchronisation point follows, which keeps
what the return wrote and installs the rebuilt table, or raises the internal fault. -/
theorem mretInEveryMode : Obligations.MretInEveryMode := by
  intro s
  have hbit := getLsbD_mstatusOnReturn s.vregs.mstatus
  have hrest : ∀ k, k ≠ 3 → (returnThroughMepc s).vregs.mstatus.getLsbD k = s.vregs.mstatus.getLsbD k :=
    fun k hk => (hbit k).trans (if_neg hk)
  have hmode := returnThroughMepc_mode_eq_mretMode s
  refine ⟨fun hm => ?user, fun hm hf => ?clear, fun sh rt hm hf hs hb => ?rebuilt, fun sh hm hf hs hb => ?absent⟩
  case user => exact ⟨mret_of_user hm, finish_killedFrom (mret_of_user hm)⟩
  case clear =>
    exact ⟨_, congrArg (finish s) (mret_of_flag_clear hm hf), hbit 3, hrest, hmode, rfl,
      fun r => returnThroughMepc_get, rfl⟩
  case rebuilt =>
    have he := (mret_of_flag_set hm hf).trans (pmpSync_of_built (s := returnThroughMepc s) hs hb)
    exact ⟨_, congrArg (finish s) he, hbit 3, hrest, hmode, rfl,
      fun r => returnThroughMepc_get, rfl, rfl, rfl, rfl⟩
  case absent =>
    have he := (mret_of_flag_set hm hf).trans (pmpSync_of_absentPage (s := returnThroughMepc s) hs hb)
    exact ⟨he, _, congrArg (finish s) he, haltSequence_haltedFrom _ s⟩

/-! ### User mode (R140, R181) -/

/-- No register is within the reach of User mode (R140). -/
theorem not_minMode_le_user {s : State} (hm : s.mode = .user) (r : Csr) : ¬ r.minMode.num ≤ s.mode.num := by
  rw [hm]
  exact Nat.not_le.2 r.one_le_minMode

/-- In User mode every instruction but ECALL is a violation: the two returns by their mode test, the two CSR classes
because no register is in reach. -/
theorem exec_of_user {s : State} (hm : s.mode = .user) {i : Instr} (hi : i ≠ .ecall) :
    ∃ v, exec i s = .next (violationSequence v s) := by
  cases i with
  | ecall => exact absurd rfl hi
  | sret =>
    have hne : s.mode ≠ .supervisor := by simp [hm]
    exact ⟨_, congrArg (finish s) (sret_of_ne_supervisor hne)⟩
  | mret => exact ⟨_, congrArg (finish s) (mret_of_user hm)⟩
  | csrrw csr rs1 rd =>
    rcases csrWrite_cases (csrIdOf csr) rs1 s with ⟨v, e⟩ | ⟨r, -, hr, -⟩
    · exact ⟨v, congrArg (finish s) e⟩
    · exact absurd hr (not_minMode_le_user hm r)
  | csrrs csr rs1 rd =>
    rcases csrRead_cases (csrIdOf csr) rd s with ⟨v, e⟩ | ⟨r, -, hr, -⟩
    · exact ⟨v, congrArg (finish s) e⟩
    · exact absurd hr (not_minMode_le_user hm r)

/-- Settles O27: every such instruction is the violation sequence. -/
theorem userModeAdmitsOnlyEcall : Obligations.UserModeAdmitsOnlyEcall := by
  intro i s hm hi
  obtain ⟨v, hv⟩ := exec_of_user hm hi
  exact ⟨_, hv, violationSequence_killedFrom v s⟩

theorem Csr.minMode_eq (r : Csr) : r.minMode = .supervisor ∨ r.minMode = .machine := by
  cases r <;> decide

/-- The entry into Supervisor computes every Supervisor register from `pc` and the Supervisor registers alone (R121). -/
theorem enterSupervisor_get_congr {s : State} {f : VRegFile}
    (hf : ∀ r : Csr, r.minMode = .supervisor → f.get r = s.vregs.get r) {r : Csr} (hr : r.minMode = .supervisor) :
    (enterSupervisor { s with vregs := f }).vregs.get r = (enterSupervisor s).vregs.get r := by
  by_cases hp : r = .sepc
  · rw [hp]; rfl
  by_cases hs : r = .sstatus
  · rw [hs]; exact congrArg sstatusOnEntry (hf .sstatus rfl)
  · rw [enterSupervisor_get hp hs, enterSupervisor_get hp hs]; exact hf r hr

/-- Settles O30: ECALL enters Supervisor through `stvec`, a Supervisor register, and leaves the Machine registers alone;
every other instruction resets both files, whatever they held. -/
theorem userLearnsNoMachineRegister : Obligations.UserLearnsNoMachineRegister := by
  intro i s f hm hf
  by_cases hi : i = .ecall
  · subst hi
    refine ⟨_, _, exec_ecall_of_user hm, exec_ecall_of_user (s := { s with vregs := f }) hm, ?_, fun r => ?_⟩
    · have hstvec : f.stvec = s.vregs.stvec := hf .stvec rfl
      simp only [enterSupervisor, hstvec]
    · rcases r.minMode_eq with hr | hr
      · exact .inr (enterSupervisor_get_congr hf hr)
      · have hp : r ≠ .sepc := by rintro rfl; cases hr
        have hs : r ≠ .sstatus := by rintro rfl; cases hr
        exact .inl ⟨hr, enterSupervisor_get hp hs, enterSupervisor_get hp hs⟩
  · obtain ⟨v, hv⟩ := exec_of_user hm hi
    obtain ⟨w, hw⟩ := exec_of_user (s := { s with vregs := f }) hm hi
    exact ⟨_, _, hv, hw, rfl, fun _ => .inr rfl⟩

end Sys2Proof.Machine
end

section
/-! Which events change the mode, and what Supervisor and User leave of the Machine registers (spec
42_privilege_transitions.md R135, R136; 60_exceptions.md R182). -/

namespace Sys2Proof.Machine

/-! ### The events that change the mode (R182) -/

/-- Instruction `i` is an event of R182 that takes the mode of `s` to that of `t`: ECALL one level up, SRET down to User,
MRET to its MPP. -/
def State.ModeEvent (i : Instr) (s t : State) : Prop :=
  (i = .ecall ∧ s.mode = .user ∧ t.mode = .supervisor) ∨
  (i = .ecall ∧ s.mode = .supervisor ∧ t.mode = .machine) ∨
  (i = .sret ∧ s.mode = .supervisor ∧ s.vregs.sstatus.getLsbD 8 = false ∧ t.mode = .user) ∨
  (i = .mret ∧ s.mode ≠ .user ∧ t.mode = mretMode s.vregs.mstatus s.mode)

/-- An instruction kills the guest, halts the block, is an event of R182, or keeps the mode. -/
theorem exec_mode_cases {i : Instr} {s t : State} (h : exec i s = .next t) :
    (∃ v, t = violationSequence v s) ∨ (∃ r, t = haltSequence r s) ∨ s.ModeEvent i t ∨ t.mode = s.mode := by
  rcases exec_next h with ⟨v, hv⟩ | ⟨-, -, -, hr, -⟩ | ⟨rfl, hm, rfl⟩ | ⟨rfl, hm, rfl⟩ | ⟨rfl, hm, rfl⟩ |
    ⟨rfl, hm, -, rfl⟩ | ⟨rfl, hm, -, sh, tbl, -, -, rfl⟩ | ⟨csr, rs1, rd, r, -, -, -, rfl⟩ |
    ⟨csr, rs1, rd, r, -, -, -, rfl⟩
  · exact .inl ⟨v, hv⟩
  · exact .inr (.inl ⟨_, hr⟩)
  · exact .inr (.inr (.inl (.inl ⟨rfl, hm, rfl⟩)))
  · exact .inr (.inr (.inl (.inr (.inl ⟨rfl, hm, rfl⟩))))
  · have hmode := returnThroughSepc_mode_of_supervisor hm
    cases hb : s.vregs.sstatus.getLsbD 8 with
    | false => exact .inr (.inr (.inl (.inr (.inr (.inl ⟨rfl, hm, hb, by rw [hmode, hb]; rfl⟩)))))
    | true => exact .inr (.inr (.inr (by rw [hmode, hb, hm]; rfl)))
  · exact .inr (.inr (.inl (.inr (.inr (.inr ⟨rfl, hm, returnThroughMepc_mode_eq_mretMode s⟩)))))
  · exact .inr (.inr (.inl (.inr (.inr (.inr ⟨rfl, hm, returnThroughMepc_mode_eq_mretMode s⟩)))))
  · exact .inr (.inr (.inr (by simp [csrWritten])))
  · exact .inr (.inr (.inr (by simp [csrWasRead])))

/-- Step 1 of a `TRAP` keeps the mode (R111). -/
theorem mode_of_ensureShadow {s u : State} (h : ensureShadow s = .ok u) : u.mode = s.mode :=
  (congrArg State.mode (ensureShadow_eq h) :)

/-- Step 1 of a `TRAP` keeps the virtual registers (R111). -/
theorem vregs_of_ensureShadow {s u : State} (h : ensureShadow s = .ok u) : u.vregs = s.vregs :=
  (congrArg State.vregs (ensureShadow_eq h) :)

/-- Settles O29: a `TRAP` kills, halts or runs an instruction, at a state that differs from the one before the step in the
shadow alone; `INIT` and reset reset the context, and the environment keeps the mode. -/
theorem modeChangesOnlyByTheListedEvents : Obligations.ModeChangesOnlyByTheListedEvents := by
  intro s t h hne
  rcases step_next h with ⟨-, -, ht⟩ | ⟨-, -, -, rfl⟩ | ⟨-, -, rfl⟩ | ⟨-, hc, -, -⟩
  · rcases trapTransaction_cases ht with hh | hk | ⟨u, w, i, hu, hw, hi, he⟩
    · exact .inr (.inl hh)
    · exact .inl hk.reset
    have hmode : u.mode = s.mode := mode_of_ensureShadow (s := s.taken) hu
    have hregs : u.vregs = s.vregs := vregs_of_ensureShadow (s := s.taken) hu
    rcases exec_mode_cases he with ⟨v, rfl⟩ | ⟨r, rfl⟩ | hev | hkeep
    · exact .inl (initContext_contextReset _)
    · exact .inr (.inl (haltedFrom_of_ensureShadow hu (haltSequence_haltedFrom r u)))
    · rw [State.ModeEvent, hmode, hregs] at hev
      exact .inr (.inr ⟨u, w, i, hu, hw, hi, hev⟩)
    · exact absurd (hkeep.trans hmode) hne
  · exact .inl (initContext_contextReset _)
  · exact .inl (initContext_contextReset _)
  · exact absurd hc.mode hne

/-! ### Monotonicity (R136) -/

/-- MRET never raises the mode (R136). -/
theorem mretMode_le (m : Word) {mode : Mode} (hm : mode ≠ .user) : (mretMode m mode).num ≤ mode.num := by
  have hone : 1 ≤ mode.num := Nat.not_lt.1 (mt (below_supervisor_iff mode).1 hm)
  rw [mretMode]
  split
  · exact Nat.zero_le _
  · exact hone
  · exact Nat.le_refl _

/-- An event of R182 that reaches Machine from below is ECALL from Supervisor (R136). -/
theorem State.ModeEvent.eq_ecall {i : Instr} {s t : State} (h : s.ModeEvent i t) (hs : s.mode ≠ .machine)
    (ht : t.mode = .machine) : i = .ecall ∧ s.mode = .supervisor := by
  rcases h with ⟨-, -, hm⟩ | ⟨hi, hm, -⟩ | ⟨-, -, -, hm⟩ | ⟨-, hu, hm⟩
  · cases ht.symm.trans hm
  · exact ⟨hi, hm⟩
  · cases ht.symm.trans hm
  · have hle := mretMode_le s.vregs.mstatus hu
    rw [← hm, ht] at hle
    exact absurd (Mode.num_injective (Nat.le_antisymm s.mode.num_le_two hle)) hs

/-- Settles O28: the functions of the three transitions and of the two accesses answer a state in known cases, and an
instruction that reaches Machine is an event of R182, a kill or a halt. -/
theorem modeChangesAreMonotone : Obligations.ModeChangesAreMonotone := by
  refine ⟨fun s t h => ?ecall, fun s t h => ?sret, fun s t h => ?mret, fun s t id i h => ?write, fun s t id i h => ?read,
    fun i s t h hs ht => ?exec⟩
  case ecall =>
    cases hm : s.mode <;> rw [ecall, hm] at h <;> cases h <;> rfl
  case sret =>
    cases hm : s.mode <;> rw [sret, hm] at h <;> cases h
    rw [← hm]
    exact demote_le 1 _ _ (by rw [hm]; exact Nat.le_refl 1)
  case mret =>
    rcases mret_cases s with ⟨-, e⟩ | ⟨hm, -, e⟩ | ⟨-, -, -, e⟩ | ⟨-, -, -, -, -, e⟩ | ⟨hm, -, sh, rt, -, -, e⟩ <;>
      rw [e] at h <;> cases h
    all_goals exact (returnThroughMepc_mode_eq_mretMode s).symm ▸ mretMode_le s.vregs.mstatus hm
  case write =>
    rcases csrWrite_cases id i s with ⟨v, e⟩ | ⟨r, -, -, e⟩ <;> rw [e] at h <;> cases h
    simp [csrWritten]
  case read =>
    rcases csrRead_cases id i s with ⟨v, e⟩ | ⟨r, -, -, e⟩ <;> rw [e] at h <;> cases h
    simp [csrWasRead]
  case exec =>
    rcases exec_mode_cases h with ⟨v, rfl⟩ | ⟨r, rfl⟩ | hev | hkeep
    · exact .inr (.inl (violationSequence_killedFrom v s))
    · exact .inr (.inr (haltSequence_haltedFrom r s))
    · exact .inl (hev.eq_ecall hs ht)
    · exact absurd (hkeep.symm.trans ht) hs

/-! ### The escalation path (R135) -/

/-- An MRET above User that does not halt the block lands where MPP says (R130, R131). -/
theorem mode_of_exec_mret {s t : State} (hm : s.mode ≠ .user) (h : exec .mret s = .next t) (hf : t.faulted = false) :
    t.mode = mretMode s.vregs.mstatus s.mode := by
  rcases mret_cases s with ⟨hu, -⟩ | ⟨-, -, e⟩ | ⟨-, -, -, e⟩ | ⟨-, -, sh, -, -, e⟩ | ⟨-, -, sh, rt, -, -, e⟩
  case inl => exact absurd hu hm
  all_goals
    rw [exec, execMret, e] at h
    cases h
  · exact returnThroughMepc_mode_eq_mretMode s
  · cases hf
  · exact returnThroughMepc_mode_eq_mretMode s

/-- Settles O31: the second ECALL records Supervisor in MPP, which MRET returns to, and the first records User in SPP, which
SRET returns to. -/
theorem escalationRoundTrip : Obligations.EscalationRoundTrip := by
  intro s a a' b b' c c' d hs ha ha' hb hb' hmpp1 hmpp0 hc hcf hc' hspp hd
  cases (exec_ecall_of_user hs).symm.trans ha
  cases (exec_ecall_of_supervisor ha').symm.trans hb
  have hmpp : mretMode b'.vregs.mstatus b'.mode = .supervisor := by
    rw [mretMode, hmpp1.trans (getLsbD_mstatusOnEntry _ 12), hmpp0.trans (getLsbD_mstatusOnEntry _ 11)]
    rfl
  have hcm : c.mode = .supervisor := (mode_of_exec_mret (by simp [hb']) hc hcf).trans hmpp
  have hcm' : c'.mode = .supervisor := hc'.trans hcm
  cases (exec_sret_of_supervisor hcm').symm.trans hd
  refine ⟨rfl, rfl, hcm, ?_⟩
  rw [returnThroughSepc_mode_of_supervisor hcm', hspp.trans (getLsbD_sstatusOnEntry _ 8)]
  rfl

/-! ### The Machine registers below Machine (R140, R181) -/

/-- A CSRRW keeps every register but the one it names (R38, R141). -/
theorem csrWritten_get_other {r q : Csr} (h : q ≠ r) (rs1 : RegIdx) (s : State) :
    (csrWritten r rs1 s).vregs.get q = s.vregs.get q := by
  simp [csrWritten, VRegFile.get_set_other _ h]

/-- Below Machine an instruction kills the guest, halts the block, or keeps every Machine register but the two that ECALL
and MRET write: a CSRRW reaches no Machine register. -/
theorem exec_keeps_machine_registers {i : Instr} {s t : State} (h : exec i s = .next t) (hs : s.mode ≠ .machine) :
    (∃ v, t = violationSequence v s) ∨ (∃ r, t = haltSequence r s) ∨
    ∀ r : Csr, r.minMode = .machine → r ≠ .mepc → r ≠ .mstatus → t.vregs.get r = s.vregs.get r := by
  rcases exec_next h with ⟨v, hv⟩ | ⟨-, -, -, hr, -⟩ | hrest
  · exact .inl ⟨v, hv⟩
  · exact .inr (.inl ⟨_, hr⟩)
  refine .inr (.inr fun r hr hp hst => ?_)
  have hsepc : r ≠ .sepc := by rintro rfl; cases hr
  have hsstatus : r ≠ .sstatus := by rintro rfl; cases hr
  rcases hrest with ⟨-, -, rfl⟩ | ⟨-, -, rfl⟩ | ⟨-, -, rfl⟩ | ⟨-, -, -, rfl⟩ | ⟨-, -, -, sh, tbl, -, -, rfl⟩ |
    ⟨csr, rs1, rd, q, -, -, hq, rfl⟩ | ⟨csr, rs1, rd, q, -, -, -, rfl⟩
  · exact enterSupervisor_get hsepc hsstatus
  · exact enterMachine_get hp hst
  · exact returnThroughSepc_get hsstatus
  · exact returnThroughMepc_get hst
  · exact returnThroughMepc_get hst
  · refine csrWritten_get_other ?_ rs1 s
    rintro rfl
    rw [hr] at hq
    exact hs (Mode.num_injective (Nat.le_antisymm s.mode.num_le_two hq))
  · simp [csrWasRead]

/-- Settles O34: a `TRAP` kills, halts or runs an instruction, at a state that differs from the one before the step in the
shadow alone. -/
theorem machineRegistersAreGuarded : Obligations.MachineRegistersAreGuarded := by
  intro s t hn hs h
  rcases step_next h with ⟨-, -, ht⟩ | ⟨hn', -⟩ | ⟨hn', -⟩ | ⟨hn', -⟩
  case inl =>
    rcases trapTransaction_cases ht with hh | hk | ⟨u, w, i, hu, -, -, he⟩
    · exact .inr (.inl hh)
    · exact .inl hk
    have hmode : u.mode = s.mode := mode_of_ensureShadow (s := s.taken) hu
    have hregs : u.vregs = s.vregs := vregs_of_ensureShadow (s := s.taken) hu
    rcases exec_keeps_machine_registers he (hmode ▸ hs) with ⟨v, rfl⟩ | ⟨r, rfl⟩ | hkeep
    · exact .inl (killedFrom_of_ensureShadow hu (violationSequence_killedFrom v u))
    · exact .inr (.inl (haltedFrom_of_ensureShadow hu (haltSequence_haltedFrom r u)))
    · exact .inr (.inr (hregs ▸ hkeep))
  all_goals cases hn.symm.trans hn'

end Sys2Proof.Machine
end

section
/-! The access mediator: what its check decides, what CSRRW and CSRRS do when it passes and when it refuses, and which
event raises the PMP flag (spec 43_csr_access.md R140 to R146). -/

namespace Sys2Proof.Machine

/-! ### The check (R140) -/

/-- Settles O18: the three answers of the check, and no register is within the reach of User mode. -/
theorem csrCheckDecides : Obligations.CsrCheckDecides := by
  refine fun s id => ⟨csrCheck_unknown, fun r hr => ?_, fun hu r hok => ?_⟩
  · split
    · next hlt => exact csrCheck_insufficient hr hlt
    · next hge => exact csrCheck_allowed hr (Nat.not_lt.1 hge)
  · rcases csrCheck_cases s id with ⟨-, e⟩ | ⟨q, -, -, e⟩ | ⟨q, -, hq, -⟩
    · cases e.symm.trans hok
    · cases e.symm.trans hok
    · exact not_minMode_le_user hu q hq

/-! ### A refused access (R141, R142, R146) -/

section
variable {s : State}

/-- The write raises what its check raises (R141). -/
theorem csrWrite_refused {id : CsrId} {e : Raise} (h : csrCheck s id = .error e) (rs1 : RegIdx) :
    csrWrite id rs1 s = .error e := by
  rw [csrWrite, h]

/-- The read raises what its check raises (R142). -/
theorem csrRead_refused {id : CsrId} {e : Raise} (h : csrCheck s id = .error e) (rd : RegIdx) :
    csrRead id rd s = .error e := by
  rw [csrRead, h]

/-- A CSRRW whose check fails raises the check's reason, and the guest is killed (R141, R171). -/
theorem csrrw_refused_killedFrom {csr : Imm12} {v : Violation} (h : csrCheck s (csrIdOf csr) = .error (.violation v))
    (rs1 rd : RegIdx) : csrWrite (csrIdOf csr) rs1 s = .error (.violation v) ∧
      ∃ t, exec (.csrrw csr rs1 rd) s = .next t ∧ s.KilledFrom t :=
  ⟨csrWrite_refused h rs1, finish_killedFrom (csrWrite_refused h rs1)⟩

/-- A CSRRS whose check fails raises the check's reason, and the guest is killed (R142, R171). -/
theorem csrrs_refused_killedFrom {csr : Imm12} {v : Violation} (h : csrCheck s (csrIdOf csr) = .error (.violation v))
    (rs1 rd : RegIdx) : csrRead (csrIdOf csr) rd s = .error (.violation v) ∧
      ∃ t, exec (.csrrs csr rs1 rd) s = .next t ∧ s.KilledFrom t :=
  ⟨csrRead_refused h rd, finish_killedFrom (csrRead_refused h rd)⟩

end

/-- Settles O22: both access functions answer what the check answers. -/
theorem refusedAccessAnswersNoState : Obligations.RefusedAccessAnswersNoState := fun _ _ i hm =>
  ⟨csrWrite_refused (csrCheck_insufficient rfl hm) i, csrRead_refused (csrCheck_insufficient rfl hm) i⟩

/-! ### A completed access (R141 to R144) -/

@[simp] theorem csrWritten_mode (r : Csr) (rs1 : RegIdx) (s : State) : (csrWritten r rs1 s).mode = s.mode := by
  simp [csrWritten]

@[simp] theorem csrWritten_pc (r : Csr) (rs1 : RegIdx) (s : State) : (csrWritten r rs1 s).pc = s.pc + 4#64 := by
  simp [csrWritten]

@[simp] theorem csrWritten_pmpConfiguration (r : Csr) (rs1 : RegIdx) (s : State) :
    (csrWritten r rs1 s).pmpConfiguration = (pmpCodes.contains r.code || s.pmpConfiguration) := by
  simp [csrWritten]

/-- A CSRRW changes the register file, the flag and `pc` alone (R141). -/
theorem csrWritten_frame (r : Csr) (rs1 : RegIdx) (s : State) :
    csrWritten r rs1 s = { s with
      vregs := (csrWritten r rs1 s).vregs
      pmpConfiguration := (csrWritten r rs1 s).pmpConfiguration
      pc := (csrWritten r rs1 s).pc } := by
  rw [csrWritten, notePmpWrite]
  split <;> rfl

@[simp] theorem csrWasRead_pc (r : Csr) (rd : RegIdx) (s : State) : (csrWasRead r rd s).pc = s.pc + 4#64 := by
  simp [csrWasRead]

@[simp] theorem csrWasRead_pmpConfiguration (r : Csr) (rd : RegIdx) (s : State) :
    (csrWasRead r rd s).pmpConfiguration = s.pmpConfiguration := by
  simp [csrWasRead]

/-- A CSRRS keeps every general register but its destination (R142). -/
theorem csrWasRead_readX_other (r : Csr) {rd j : RegIdx} (hj : j ≠ rd) (s : State) :
    (csrWasRead r rd s).readX j = s.readX j :=
  (readX_writeX s rd _ j).trans (if_neg fun h => hj h.1)

/-- A CSRRS into `x[0]` keeps every general register (R29, R142). -/
theorem csrWasRead_readX_of_zero (r : Csr) (j : RegIdx) (s : State) : (csrWasRead r 0#5 s).readX j = s.readX j :=
  (readX_writeX s 0#5 _ j).trans (if_neg fun h => h.2 rfl)

/-- A CSRRS changes the general registers and `pc` alone (R142). -/
theorem csrWasRead_frame (r : Csr) (rd : RegIdx) (s : State) :
    csrWasRead r rd s = { s with x := (csrWasRead r rd s).x, pc := (csrWasRead r rd s).pc } := by
  rw [csrWasRead, State.writeX]
  split <;> rfl

/-- Settles O19: a CSRRW that passes its check is `csrWritten`, and one that fails it raises the check's reason. -/
theorem csrrwInEveryCase : Obligations.CsrrwInEveryCase := by
  refine fun s csr rs1 rd => ⟨fun r hr hm => ?_, fun r hr hm => ?_, fun hn => ?_⟩
  · refine ⟨_, exec_csrrw_allowed hr hm rs1 rd, csrWritten_get_self r rs1 s,
      fun q hq => csrWritten_get_other hq rs1 s, ?_, ?_, csrWritten_frame r rs1 s⟩
    · rw [csrWritten_pmpConfiguration, hr, pmpCodes_contains_csrIdOf, Bool.or_comm]
    · rw [csrWritten_pc, BitVec.toNat_add]; rfl
  · exact csrrw_refused_killedFrom (csrCheck_insufficient hr hm) rs1 rd
  · exact csrrw_refused_killedFrom (csrCheck_unknown hn) rs1 rd

/-- Settles O20: a CSRRS that passes its check is `csrWasRead`, and one that fails it raises the check's reason. -/
theorem csrrsInEveryCase : Obligations.CsrrsInEveryCase := by
  refine fun s csr rs1 rd => ⟨fun r hr hm => ?_, fun r hr hm => ?_, fun hn => ?_⟩
  · refine ⟨_, exec_csrrs_allowed hr hm rs1 rd, fun hrd => csrWasRead_readX_self r hrd s,
      fun j hj => csrWasRead_readX_other r hj s, ?_, ?_, csrWasRead_frame r rd s⟩
    · rintro rfl j
      exact csrWasRead_readX_of_zero r j s
    · rw [csrWasRead_pc, BitVec.toNat_add]; rfl
  · exact csrrs_refused_killedFrom (csrCheck_insufficient hr hm) rs1 rd
  · exact csrrs_refused_killedFrom (csrCheck_unknown hn) rs1 rd

/-- Settles O21: the write keeps the mode, so the read passes its check too and finds the value written. -/
theorem csrWriteThenReadReturnsTheValue : Obligations.CsrWriteThenReadReturnsTheValue := by
  intro s r csr a b rd rs1 hr hm hb
  have hread : r.minMode.num ≤ (csrWritten r a s).mode.num := by rwa [csrWritten_mode]
  refine ⟨_, _, exec_csrrw_allowed hr hm a rd, exec_csrrs_allowed hr hread rs1 b, ?_, ?_⟩
  · rw [csrWasRead_readX_self r hb, csrWritten_get_self]
  · rw [csrWasRead_pc, csrWritten_pc, BitVec.add_assoc]; rfl

/-! ### The PMP flag (R143) -/

/-- Every PMP identifier names a register of Machine mode (R36, R143). -/
theorem exists_machine_csr_of_mem_pmpCodes : ∀ id ∈ pmpCodes, ∃ r : Csr, r.code = id ∧ r.minMode = .machine := by
  simp only [pmpCodes, List.forall_mem_cons]
  exact ⟨⟨.pmpcfg0, rfl, rfl⟩, ⟨.pmpaddr0, rfl, rfl⟩, ⟨.pmpaddr1, rfl, rfl⟩, ⟨.pmpaddr2, rfl, rfl⟩,
    ⟨.pmpaddr3, rfl, rfl⟩, List.forall_mem_nil _⟩

/-- The five PMP identifiers, on the decoded immediate (R83, R143). -/
theorem csrIdOf_mem_pmpCodes_iff (csr : Imm12) :
    csrIdOf csr ∈ pmpCodes ↔ csr ∈ [0x3A0#12, 0x3B0#12, 0x3B1#12, 0x3B2#12, 0x3B3#12] := by
  rw [← List.contains_iff_mem, pmpCodes_contains_csrIdOf, decide_eq_true_iff]

/-- An instruction raises the flag only as a CSRRW of a PMP identifier in Machine mode, or by halting the block (R143,
R172). -/
theorem exec_raises_flag {i : Instr} {s t : State} (h : exec i s = .next t) (hs : s.pmpConfiguration = false)
    (ht : t.pmpConfiguration = true) :
    (∃ r, t = haltSequence r s) ∨
    (s.mode = .machine ∧ ∃ csr rs1 rd, i = .csrrw csr rs1 rd ∧ csrIdOf csr ∈ pmpCodes) := by
  have hne : t.pmpConfiguration ≠ s.pmpConfiguration := by simp [hs, ht]
  rcases exec_next h with ⟨v, rfl⟩ | ⟨-, -, -, hr, -⟩ | ⟨-, -, rfl⟩ | ⟨-, -, rfl⟩ | ⟨-, -, rfl⟩ | ⟨-, -, -, rfl⟩ |
    ⟨-, -, -, sh, tbl, -, -, rfl⟩ | ⟨csr, rs1, rd, r, hi, hr, hm, rfl⟩ | ⟨csr, rs1, rd, r, -, -, -, rfl⟩
  · cases ht
  · exact .inl ⟨_, hr⟩
  · exact absurd rfl hne
  · exact absurd rfl hne
  · exact absurd rfl hne
  · exact absurd rfl hne
  · exact absurd rfl hne
  · have hcode := code_of_lookup hr
    have hid : csrIdOf csr ∈ pmpCodes := by simpa [hs, hcode] using ht
    obtain ⟨q, hq, hqm⟩ := exists_machine_csr_of_mem_pmpCodes _ hid
    cases Csr.code_injective (hq.trans hcode.symm)
    rw [hqm] at hm
    exact .inr ⟨Mode.num_injective (Nat.le_antisymm s.mode.num_le_two hm), csr, rs1, rd, hi, hid⟩
  · exact absurd (csrWasRead_pmpConfiguration r rd s) hne

/-- Settles O24: a `TRAP` that raises the flag halts or runs such a CSRRW, at a state that differs from the one before the
step in the shadow alone; no other input raises it. A PMP register is in reach of Machine mode, and its write keeps the
tables. -/
theorem pmpFlagSetOnlyByPmpWrites : Obligations.PmpFlagSetOnlyByPmpWrites := by
  refine ⟨fun s t h hs ht => ?_, fun s csr rs1 rd hm hcsr => ?_⟩
  · rcases step_next h with ⟨-, -, htrap⟩ | ⟨-, -, -, rfl⟩ | ⟨-, -, rfl⟩ | ⟨-, hc, -, -⟩
    · rcases trapTransaction_cases htrap with hh | hk | ⟨u, w, i, hu, hw, hi, he⟩
      · exact .inl hh
      · cases hk.reset.flag.symm.trans ht
      have hflag : u.pmpConfiguration = s.pmpConfiguration := (congrArg State.pmpConfiguration (ensureShadow_eq hu) :)
      have hmode : u.mode = s.mode := mode_of_ensureShadow (s := s.taken) hu
      rcases exec_raises_flag he (hflag.trans hs) ht with ⟨r, rfl⟩ | ⟨hm, csr, rs1, rd, rfl, hid⟩
      · exact .inl (haltedFrom_of_ensureShadow hu (haltSequence_haltedFrom r u))
      · exact .inr ⟨hmode.symm.trans hm, u, w, csr, rs1, rd, hu, hw, hi, (csrIdOf_mem_pmpCodes_iff csr).1 hid⟩
    · cases ht
    · cases ht
    · cases (hc.flag.trans hs).symm.trans ht
  · have hid := (csrIdOf_mem_pmpCodes_iff csr).2 hcsr
    obtain ⟨r, hr, hrm⟩ := exists_machine_csr_of_mem_pmpCodes _ hid
    have hle : r.minMode.num ≤ s.mode.num := by rw [hrm, hm]
    refine ⟨_, exec_csrrw_allowed hr hle rs1 rd, ?_, ?_, ?_, ?_⟩
    · simp [hr, hid]
    all_goals rw [csrWritten_frame]

end Sys2Proof.Machine
end

section
/-! The two region operations against the spec's loops, and the PMP regions (spec 44_shadow_pmp.md R150 to R155). -/

namespace Sys2Proof.Machine

/-! ### `duplicate_region` (R150, R151) -/

/-- Two canonical tables with the same lookups are the same table (R61). -/
theorem Table.ext_find {t u : Table} (ht : t.wf = true) (hu : u.wf = true) (h : ∀ v, t.find v = u.find v) : t = u :=
  Assoc.ext ((Table.wf_iff t).1 ht).1 ((Table.wf_iff u).1 hu).1 h

/-- On canonical tables `duplicate_region` answers `t` exactly when the source maps the range and `t` is the canonical table
with the source's entries on it and the destination's elsewhere (R151). -/
theorem Table.duplicateRegion_eq_some_iff {src dst t : Table} (hs : src.wf = true) (hd : dst.wf = true)
    {start stop : Nat} :
    src.duplicateRegion dst start stop = some t ↔
      (∀ v, inPageRange start stop v = true → src.find v ≠ none) ∧ t.wf = true ∧
        ∀ v, t.find v = if inPageRange start stop v = true then src.find v else dst.find v := by
  constructor
  · intro h
    exact ⟨(Table.duplicateRegion_isSome hs dst start stop).1 (Option.isSome_of_eq_some h),
      Table.wf_duplicateRegion hs hd h, Table.find_duplicateRegion hs h⟩
  · rintro ⟨hmap, ht, hfind⟩
    obtain ⟨u, hu⟩ := Option.isSome_iff_exists.1 ((Table.duplicateRegion_isSome hs dst start stop).2 hmap)
    have hut : u = t := Table.ext_find (Table.wf_duplicateRegion hs hd hu) ht fun v =>
      (Table.find_duplicateRegion hs hu v).trans (hfind v).symm
    rw [hu, hut]

/-- One turn of the loop of R151. -/
def Table.duplicatePage (src dst : Table) (vpn : Nat) : Option Table := (src.find vpn).map fun e => dst.put vpn e

theorem Table.duplicateLoop_eq_foldlM (src dst : Table) (start stop : Nat) :
    src.duplicateLoop dst start stop = (pageRange start stop).foldlM src.duplicatePage dst := rfl

theorem Table.duplicatePage_of_mapped {src : Table} {vpn : Nat} {e : Pte} (h : src.find vpn = some e) (dst : Table) :
    src.duplicatePage dst vpn = some (dst.put vpn e) := by
  rw [Table.duplicatePage, h, Option.map_some]

/-- The turns of the loop over mapped pages leave a canonical table with the source's entries on those pages. -/
theorem Table.foldlM_duplicatePage_of_mapped {src dst : Table} (hs : src.wf = true) (hd : dst.wf = true)
    {pages : List Nat} (hmap : ∀ v ∈ pages, src.find v ≠ none) :
    ∃ t, pages.foldlM src.duplicatePage dst = some t ∧ t.wf = true ∧
      ∀ v, t.find v = if v ∈ pages then src.find v else dst.find v := by
  induction pages generalizing dst with
  | nil => exact ⟨dst, rfl, hd, fun v => by simp⟩
  | cons p ps ih =>
    obtain ⟨e, he⟩ := Option.ne_none_iff_exists'.1 (hmap p (List.mem_cons_self ..))
    have hp : p < 2 ^ 52 := ((Table.wf_iff src).1 hs).2 _ ((Table.find_eq_some_iff hs p e).1 he)
    obtain ⟨t, ht, hwf, hfind⟩ := ih (Table.wf_put hd hp e) fun v hv => hmap v (List.mem_cons_of_mem _ hv)
    refine ⟨t, ?_, hwf, fun v => ?_⟩
    · rw [List.foldlM_cons, Table.duplicatePage_of_mapped he]
      exact ht
    · rw [hfind, Table.find_put hd]
      by_cases hv : v ∈ ps
      · simp [hv]
      · by_cases hpv : p = v
        · subst hpv; simp [hv, he]
        · simp [hv, hpv, Ne.symm hpv]

/-- The loop raises the fault when one of its pages is absent, whatever stands before it. -/
theorem Table.foldlM_duplicatePage_of_absent {src : Table} (dst : Table) {pages : List Nat} {v : Nat} (hv : v ∈ pages)
    (habs : src.find v = none) : pages.foldlM src.duplicatePage dst = none := by
  induction pages generalizing dst with
  | nil => cases hv
  | cons p ps ih =>
    rw [List.foldlM_cons]
    rcases List.mem_cons.1 hv with rfl | hv
    · rw [Table.duplicatePage, habs]; rfl
    · cases src.duplicatePage dst p with
      | none => rfl
      | some d => exact ih d hv

/-- Settles O38: where every page is mapped both answer the one canonical table with the entries R151 asks for; an absent
page is the fault of both. -/
theorem duplicateRegionIsTheLoop : Obligations.DuplicateRegionIsTheLoop := by
  intro source dest start stop hs hd
  rw [Table.duplicateLoop_eq_foldlM]
  by_cases hmap : ∀ v ∈ pageRange start stop, source.find v ≠ none
  · obtain ⟨t, ht, hwf, hfind⟩ := Table.foldlM_duplicatePage_of_mapped hs hd hmap
    simp only [mem_pageRange] at hmap hfind
    exact ((Table.duplicateRegion_eq_some_iff hs hd).2 ⟨hmap, hwf, hfind⟩).trans ht.symm
  · have hnone : source.duplicateRegion dest start stop = none := by
      simpa only [mem_pageRange, ← Table.duplicateRegion_isSome hs dest, Option.not_isSome_iff_eq_none] using hmap
    push Not at hmap
    obtain ⟨v, hv, habs⟩ := hmap
    rw [hnone, Table.foldlM_duplicatePage_of_absent dest hv habs]

/-- Settles O40: the table answered has the source's entries on the range already, so it is also what the second
application has to answer. -/
theorem duplicateRegionIsIdempotent : Obligations.DuplicateRegionIsIdempotent := by
  intro source dest t start stop hs hd h
  obtain ⟨hmap, ht, hfind⟩ := (Table.duplicateRegion_eq_some_iff hs hd).1 h
  refine (Table.duplicateRegion_eq_some_iff hs ht).2 ⟨hmap, ht, fun v => ?_⟩
  split
  · next hv => rw [hfind, if_pos hv]
  · rfl

/-! ### `restrict_region` (R152) -/

/-- Dropping pages one at a time keeps the entries of the other pages, in their order. -/
theorem Table.foldl_drop_eq_filter (pages : List Nat) (t : Table) :
    pages.foldl Table.drop t = t.filter fun c => decide (c.1 ∉ pages) := by
  induction pages generalizing t with
  | nil => simp
  | cons p ps ih =>
    rw [List.foldl_cons, ih, Table.drop, Assoc.drop, List.filter_filter]
    refine List.filter_congr fun c _ => ?_
    by_cases hp : c.1 = p <;> simp [hp]

/-- Settles O39: the loop filters by membership in the page range, which is the test of the one-pass form, and filtering
twice by one test is filtering once. -/
theorem restrictRegionIsTheLoop : Obligations.RestrictRegionIsTheLoop := by
  refine fun t start stop => ⟨?_, ?_⟩
  · refine Eq.trans ?_ (Table.foldl_drop_eq_filter (pageRange start stop) t).symm
    exact List.filter_congr fun c _ => by simp [mem_pageRange]
  · simp only [Table.restrictRegion, List.filter_filter, Bool.and_self]

/-! ### `PmpRegions` (R154, R155) -/

/-- A boundary is the register times 4, modulo 2^64 (R154). -/
theorem toNat_pmpBoundary (a : Word) : (pmpBoundary a).toNat = a.toNat * 4 % 2 ^ 64 := by
  rw [pmpBoundary, BitVec.toNat_shiftLeft, Nat.shiftLeft_eq]

/-- A permission is the three low bits of its byte lane (R41). -/
theorem toNat_pmpPerm (cfg : Word) (i : Nat) : (pmpPerm cfg i).toNat = cfg.toNat / 2 ^ (8 * i) % 8 := by
  rw [pmpPerm, BitVec.extractLsb'_toNat, Nat.shiftRight_eq_div_pow]

theorem pmpScan_cons_zero (cfg : Word) (i : Nat) (start : Word) (rest : List Word) :
    pmpScan cfg i start (0 :: rest) = [] := by
  rw [pmpScan, if_pos rfl]

theorem pmpScan_cons_of_ne_zero (cfg : Word) (i : Nat) (start : Word) {a : Word} (ha : a ≠ 0) (rest : List Word) :
    pmpScan cfg i start (a :: rest) =
      ⟨start, pmpBoundary a, pmpPerm cfg i⟩ :: pmpScan cfg (i + 1) (pmpBoundary a) rest := by
  rw [pmpScan, if_neg ha]

/-- The scan answers at most one region a register. -/
theorem length_pmpScan_le (cfg : Word) (i : Nat) (start : Word) (addrs : List Word) :
    (pmpScan cfg i start addrs).length ≤ addrs.length := by
  induction addrs generalizing i start with
  | nil => exact Nat.le_refl 0
  | cons a rest ih =>
    by_cases ha : a = 0
    · rw [ha, pmpScan_cons_zero]; exact Nat.zero_le _
    · rw [pmpScan_cons_of_ne_zero cfg i start ha]; exact Nat.succ_le_succ (ih ..)

/-- The scan has no region at a zero register, nor after one. -/
theorem pmpScan_getElem?_of_zero (cfg : Word) (i : Nat) (start : Word) {addrs : List Word} {j k : Nat} (hjk : j ≤ k)
    (hj : addrs[j]? = some 0) : (pmpScan cfg i start addrs)[k]? = none := by
  induction addrs generalizing i start j k with
  | nil => cases hj
  | cons a rest ih =>
    by_cases ha : a = 0
    · rw [ha, pmpScan_cons_zero]; rfl
    · rw [pmpScan_cons_of_ne_zero cfg i start ha]
      cases j with
      | zero => exact absurd (Option.some.inj hj) ha
      | succ j =>
        obtain ⟨k, rfl⟩ := Nat.exists_eq_add_of_le' (Nat.lt_of_lt_of_le (Nat.succ_pos j) hjk)
        exact ih (i + 1) _ (Nat.le_of_succ_le_succ hjk) hj

/-- Before the first zero register the scan has one region a register: from the boundary before it to its own, with its own
byte lane's permission. -/
theorem pmpScan_getElem?_of_ne_zero (cfg : Word) (i : Nat) (start : Word) {addrs : List Word} {k : Nat}
    (hk : k < addrs.length) (hne : ∀ j (hj : j < addrs.length), j ≤ k → addrs[j] ≠ 0) :
    (pmpScan cfg i start addrs)[k]? =
      some ⟨if k = 0 then start else pmpBoundary addrs[k - 1], pmpBoundary addrs[k], pmpPerm cfg (i + k)⟩ := by
  induction addrs generalizing i start k with
  | nil => cases hk
  | cons a rest ih =>
    have ha : a ≠ 0 := hne 0 (Nat.succ_pos _) (Nat.zero_le k)
    rw [pmpScan_cons_of_ne_zero cfg i start ha]
    cases k with
    | zero => rfl
    | succ k =>
      have hrest := ih (i + 1) (pmpBoundary a) (Nat.lt_of_succ_lt_succ hk) fun j hj hjk =>
        hne (j + 1) (Nat.succ_lt_succ hj) (Nat.succ_le_succ hjk)
      rw [List.getElem?_cons_succ, hrest, Nat.add_right_comm, Nat.add_assoc]
      cases k <;> rfl

/-- The four PMP address registers in the order of the scan (R155). -/
def pmpAddrs (r : VRegFile) : Fin 4 → Word := ![r.pmpaddr0, r.pmpaddr1, r.pmpaddr2, r.pmpaddr3]

theorem pmpRegions_eq_pmpScan (r : VRegFile) :
    pmpRegions r = pmpScan r.pmpcfg0 0 memBase (List.ofFn (pmpAddrs r)) := rfl

/-- Settles O41: the scan of the four registers, read at one lane: nothing from the first zero register on, and before it
the boundaries and the permission in numbers. -/
theorem pmpRegionsScanTheRegisters : Obligations.PmpRegionsScanTheRegisters := by
  intro r
  rw [pmpRegions_eq_pmpScan]
  refine ⟨(length_pmpScan_le ..).trans_eq List.length_ofFn, fun i => ⟨?zero, ?nonzero⟩⟩
  case zero =>
    rintro ⟨j, hji, hj⟩
    refine pmpScan_getElem?_of_zero _ 0 memBase (j := j) hji ?_
    rw [List.getElem?_ofFn, dif_pos j.isLt]
    exact congrArg some hj
  case nonzero =>
    intro hne
    have hlen : i.val < (List.ofFn (pmpAddrs r)).length := List.length_ofFn.symm ▸ i.isLt
    have hscan := pmpScan_getElem?_of_ne_zero r.pmpcfg0 0 memBase hlen fun j hj hji => by
      rw [List.getElem_ofFn]
      exact hne ⟨j, by rwa [List.length_ofFn] at hj⟩ hji
    refine ⟨_, hscan, ?start, ?stop, ?perm⟩
    case start =>
      by_cases hi : i = 0
      · subst hi; rfl
      · have hpred : (i - 1).val = i.val - 1 := Fin.val_sub_one_of_ne_zero hi
        simp only [if_neg hi, if_neg (Fin.val_ne_zero_iff.2 hi), List.getElem_ofFn, ← hpred, toNat_pmpBoundary]
        rfl
    case stop => simp only [List.getElem_ofFn, toNat_pmpBoundary]; rfl
    case perm => rw [toNat_pmpPerm, Nat.zero_add]

end Sys2Proof.Machine
end

section
/-! Which table is live after an instruction, and what the restricted table that MRET installs maps (spec
44_shadow_pmp.md R155 to R161). -/

namespace Sys2Proof.Machine

/-- Settles O45: of what an instruction can have done, a kill and the two installs select a table, a halt leaves it
unspecified, and the rest keeps it. -/
theorem liveTableFollowsTheEvents : Obligations.LiveTableFollowsTheEvents := by
  intro i s t h
  rcases exec_next h with ⟨v, rfl⟩ | ⟨-, -, -, rfl, -⟩ | ⟨rfl, hm, rfl⟩ | ⟨rfl, hm, rfl⟩ | ⟨rfl, -, rfl⟩ |
    ⟨rfl, -, hf, rfl⟩ | ⟨rfl, -, hf, sh, rt, -, -, rfl⟩ | ⟨csr, rs1, rd, r, rfl, -, -, rfl⟩ |
    ⟨csr, rs1, rd, r, rfl, -, -, rfl⟩
  · exact .inl ⟨violationSequence_killedFrom v s, rfl⟩
  · exact .inr (.inl (haltSequence_haltedFrom _ s))
  · exact .inr (.inr (.inr (.inr ⟨rfl, rfl, by simp [hm], by simp⟩)))
  · exact .inr (.inr (.inl ⟨rfl, hm, rfl⟩))
  · exact .inr (.inr (.inr (.inr ⟨rfl, rfl, by simp, by simp⟩)))
  · exact .inr (.inr (.inr (.inr ⟨rfl, rfl, by simp, by simp [hf]⟩)))
  · exact .inr (.inr (.inr (.inl ⟨rfl, hf, rfl⟩)))
  · exact .inr (.inr (.inr (.inr ⟨by simp [csrWritten], by simp [csrWritten], by simp, by simp⟩)))
  · exact .inr (.inr (.inr (.inr ⟨by simp [csrWasRead], by simp [csrWasRead], by simp, by simp⟩)))

/-- An MRET above User with the flag set rebuilds the restricted table and installs it, unless it halts the block (R131,
R172). -/
theorem rebuiltFrom_of_exec_mret {s t : State} (hm : s.mode ≠ .user) (hf : s.pmpConfiguration = true)
    (h : exec .mret s = .next t) (ht : t.faulted = false) : s.RebuiltFrom t := by
  rcases mret_cases s with ⟨hu, -⟩ | ⟨-, hclear, -⟩ | ⟨-, -, -, e⟩ | ⟨-, -, sh, -, -, e⟩ | ⟨-, -, sh, rt, hs, hb, e⟩
  · exact absurd hu hm
  · cases hf.symm.trans hclear
  all_goals
    rw [exec, execMret, e] at h
    cases h
  · cases ht
  · exact ⟨hf, rfl, sh, rt, hs, hb, rfl⟩

/-- The permission test fails exactly when one of read, write and execute is missing (R156). -/
theorem PmpRegion.allAccess_eq_false_iff (p : PmpRegion) : p.allAccess = false ↔ p.perm ≠ 7#3 := beq_eq_false_iff_ne

/-- A region prunes the pages that hold one of its bytes, where it lacks an access (R63, R156, R157). -/
theorem PmpRegion.prunes_iff (p : PmpRegion) (v : Nat) :
    p.prunes v ↔ p.perm ≠ 7#3 ∧ ∃ b, p.start.toNat ≤ b ∧ b < p.stop.toNat ∧ b / pageSize = v := by
  rw [PmpRegion.prunes, p.allAccess_eq_false_iff, inPageRange_iff_exists_byte]

/-- An address whose page the live table lacks does not translate (R65). -/
theorem translateAddr_of_unmapped {s : State} {tbl : Table} {va : Word} (hl : liveTable s = some tbl)
    (hf : tbl.find (vpnOf va) = none) : translateAddr s va = .error (.internalFault .fetchUnmapped) := by
  simp only [translateAddr, hl, hf]

/-- Settles O46: the table installed is the one `BuildRestricted` answers, whose lookups `find_buildRestricted` gives; that
it was answered says that the shadow maps both ranges. -/
theorem pmpFilterIsExact : Obligations.PmpFilterIsExact := by
  intro s t hi hm hf h ht
  obtain ⟨-, hlive, sh, rt, hs, hb, hrt⟩ := rebuiltFrom_of_exec_mret hm hf h ht
  have hwf := hi.shadowWf sh hs
  have hfind := find_buildRestricted hwf hb
  have hmapped := (buildRestricted_isSome hwf _ _).1 (Option.isSome_of_eq_some hb)
  have hl : liveTable t = some rt := by rw [liveTable, hlive]; exact hrt
  refine ⟨sh, rt, hs, hl, fun va p hp hperm hstart hstop => ?pruned, fun va hva hfree => ?kept, fun v hg hw => ?outside⟩
  case pruned =>
    have hpr : p.prunes (vpnOf va) := (p.prunes_iff _).2 ⟨hperm, va.toNat, hstart, hstop, rfl⟩
    exact translateAddr_of_unmapped hl ((hfind _).trans (if_pos ⟨p, hp, hpr⟩))
  case kept =>
    have hnp : ¬ ∃ p ∈ pmpRegions s.vregs, p.prunes (va.toNat / 4096) := by
      rintro ⟨p, hp, hpr⟩
      obtain ⟨hperm, b, hstart, hstop, hpage⟩ := (p.prunes_iff _).1 hpr
      exact hfree p hp hperm b hstart hstop hpage
    have hin : inBothRanges s.guestSize (va.toNat / 4096) := by
      rw [inBothRanges_iff]
      rcases hva with hva | hva
      · exact .inl ⟨_, hva, Nat.mul_div_cancel _ (by decide)⟩
      · exact .inr (by omega)
    exact ⟨by rw [hfind, if_neg hnp, if_pos hin], hmapped _ hin⟩
  case outside =>
    have hout : ¬ inBothRanges s.guestSize v := by
      rw [inBothRanges_iff]
      rintro (⟨b, hb, rfl⟩ | hv)
      · omega
      · exact hw hv
    rw [hfind, if_neg hout, ite_self]

end Sys2Proof.Machine
end

section
/-! What a raised violation leaves, whatever its reason (spec 60_exceptions.md R171). -/

namespace Sys2Proof.Machine

/-- Settles O26: raising a violation answers the violation sequence, which leaves the guest killed and the context reset
from every state. -/
theorem violationSequenceResetsEverything : Obligations.ViolationSequenceResetsEverything := fun s v =>
  ⟨violationSequence v s, raiseEvent_violation s v, violationSequence_killedFrom v s⟩

end Sys2Proof.Machine
end
